-- ==== Sys2Proof/Word.lean ====
section
/-! DEFINITION. The word types of the core: one-bit levels, bytes and the four-bit phase code
(spec/00_scope.md R9, spec/10_state.md R23). -/

namespace Sys2Proof

/-- One bit: a line or pin level, or the value of one data bit (R9, R21, R22). -/
abbrev Bit := BitVec 1

/-- An unsigned 8-bit value 0x00..0xFF; bit 0 is the least significant bit (R9). -/
abbrev Byte := BitVec 8

/-- The four bits `phase[3:0]` (R64). -/
abbrev PhaseCode := BitVec 4

end Sys2Proof
end

