-- ==== Sys2Proof/Config.lean ====
section
/-! DEFINITION. What a build of the core fixes (spec/00_scope.md R6), and the free values: what the
outside world or an unreset machine supplies and the spec does not fix (R31, R33, R157, R182).
A configuration is an argument of the model: the state carries it and no step writes it
(log entry 1). -/

namespace Sys2Proof

/-- The two messages (R66): `msg_sel` 0 is the banner, 1 the reply. -/
inductive MsgSel where
  | banner
  | reply
  deriving DecidableEq, Repr

/-- The build-time parameters of R6. -/
structure Config where
  /-- `BIT_CYCLES`, B: the bit period in `clk` cycles. -/
  bitCycles : Nat
  /-- `NODE_ID`: this node's identity byte. -/
  nodeId : Byte
  /-- `BANNER`: the startup banner's text. -/
  banner : List Byte
  /-- `REPLY_PREFIX`: the reply's fixed text. -/
  replyPrefix : List Byte
  /-- `SEND_SENTINEL`: whether a 0x00 byte follows each message. -/
  sendSentinel : Bool
  /-- `LONG_CYCLES`, L: the duration of each phase of the long pulse. -/
  longCycles : Nat
  /-- `SHORT_CYCLES`, SH: the duration of each phase of a short pulse. -/
  shortCycles : Nat
  /-- `CNT_WIDTH`: the width in bits of `cnt`. -/
  cntWidth : Nat
  /-- `IDX_WIDTH`: the width in bits of `msg_idx`. -/
  idxWidth : Nat
  /-- `CLK_HZ`: the clock frequency; no rule depends on it. -/
  clkHz : Nat
  deriving DecidableEq, Repr

/-- `BUS_TOPOLOGY` of R158: whether only the requester drives the nodes' receive line, or all nodes
and the requester share one line. A parameter of the platform, not of one core. -/
inductive Topology where
  | split
  | shared
  deriving DecidableEq, Repr

/-- The default banner of R6: `"hello from version 6"` and 0x0A. -/
def Config.defaultBanner : List Byte :=
  [0x68#8, 0x65#8, 0x6C#8, 0x6C#8, 0x6F#8, 0x20#8, 0x66#8, 0x72#8, 0x6F#8, 0x6D#8, 0x20#8,
   0x76#8, 0x65#8, 0x72#8, 0x73#8, 0x69#8, 0x6F#8, 0x6E#8, 0x20#8, 0x36#8, 0x0A#8]

/-- The default reply prefix of R6: `"i am node "`. -/
def Config.defaultReplyPrefix : List Byte :=
  [0x69#8, 0x20#8, 0x61#8, 0x6D#8, 0x20#8, 0x6E#8, 0x6F#8, 0x64#8, 0x65#8, 0x20#8]

/-- Config D of spec/95_test_vectors.md section 0: the default texts and sentinel policy of R6, with
the vectors' values of the open parameters. It is the configuration of `State.reset`.
DESIGN CHOICE (unsafe for a claim that rests on one of the open values; log entry 1). -/
def Config.vectorD : Config :=
  { bitCycles := 4, nodeId := 0x30#8, banner := Config.defaultBanner,
    replyPrefix := Config.defaultReplyPrefix, sendSentinel := true, longCycles := 3,
    shortCycles := 2, cntWidth := 3, idxWidth := 5, clkHz := 40000 }

/-- Config T of spec/95_test_vectors.md section 0: the vectors' own configuration, with texts of one
byte. -/
def Config.vectorT : Config :=
  { Config.vectorD with banner := [0x41#8], replyPrefix := [0x4E#8], idxWidth := 2 }

/-! Every free value of a node is applied to the node's place on its bus and to the number of the draw,
so that no two nodes of a bus share a draw (R157: independent instances; log entry 14). -/

/-- FREE VALUE (R33, R182): the level of `rx_in` drawn at an edge that no scripted input covers. -/
opaque Config.freeRx : Nat → Nat → Bit

/-- FREE VALUE (R33, R182): the level of `rst` drawn at an edge that no scripted input covers. -/
opaque Config.freeRst : Nat → Nat → Bit

/-- FREE VALUE (R157): the level a receiver sees at an edge where two or more agents drive its line,
by the number of the bus edge and the place of the receiver on the bus. -/
opaque Config.freeContention : Nat → Nat → Bit

/-- FREE VALUES (R31): what the registers hold in the power-up interval, one constant a register. -/
opaque Config.powerUpPhase : Nat → Nat → PhaseCode
/-- FREE VALUE (R31): `cnt` before reset. -/
opaque Config.powerUpCnt : Nat → Nat → Nat
/-- FREE VALUE (R31): `rx_bit` before reset. -/
opaque Config.powerUpRxBit : Nat → Nat → BitVec 3
/-- FREE VALUE (R31): `rx_shift` before reset. -/
opaque Config.powerUpRxShift : Nat → Nat → Byte
/-- FREE VALUE (R31): `addr` before reset. -/
opaque Config.powerUpAddr : Nat → Nat → Byte
/-- FREE VALUE (R31): `tx_byte` before reset. -/
opaque Config.powerUpTxByte : Nat → Nat → Byte
/-- FREE VALUE (R31): `tx_slot` before reset. -/
opaque Config.powerUpTxSlot : Nat → Nat → BitVec 4
/-- FREE VALUE (R31): `msg_sel` before reset, as its one bit (R66). -/
opaque Config.powerUpMsgSel : Nat → Nat → Bit
/-- FREE VALUE (R31): `msg_idx` before reset. -/
opaque Config.powerUpMsgIdx : Nat → Nat → Nat
/-- FREE VALUE (R31): `pulse_n` before reset. -/
opaque Config.powerUpPulseN : Nat → Nat → Bit
/-- FREE VALUE (R31): `tx_out` before reset. -/
opaque Config.powerUpTxOut : Nat → Nat → Bit
/-- FREE VALUE (R31): `status_out` before reset. -/
opaque Config.powerUpStatusOut : Nat → Nat → Bit

end Sys2Proof
end

