-- ==== Sys2Proof/Syntax.lean ====
section
/-! DEFINITION. The units the step function decodes: one constructor per row of
spec/opcode_table.json. The core has no instruction words (spec/30_encoding.md); what plays their
part is the phase code of the FSM (R64, R71), and a phase carries no operand field. -/

namespace Sys2Proof

/-- The nine phases of R64: the steps of the operations the FSM performs. -/
inductive Instr where
  /-- START, code 0: begin the banner (R131). -/
  | start
  /-- RX_IDLE, code 1: wait for a start bit (R90). -/
  | rxIdle
  /-- RX_DATA, code 2: time to and sample the data bits (R91). -/
  | rxData
  /-- RX_STOP, code 3: skip the stop bit and deliver the byte (R92). -/
  | rxStop
  /-- PULSE_LONG_ON, code 4: long pulse, indicator on (R132). -/
  | pulseLongOn
  /-- PULSE_LONG_OFF, code 5: long pulse, indicator off, then the address compare (R133). -/
  | pulseLongOff
  /-- TX_FRAME, code 6: the Frame and Message Transmitter (R112, R115). -/
  | txFrame
  /-- PULSE_SHORT_ON, code 7: short pulse, indicator on (R134). -/
  | pulseShortOn
  /-- PULSE_SHORT_OFF, code 8: short pulse, indicator off (R135). -/
  | pulseShortOff
  deriving DecidableEq, Repr

end Sys2Proof
end

