-- ==== Sys2Proof/Decode.lean ====
section
/-! DEFINITION. The phase code of spec/30_encoding.md R64: its table (R71: match and mask on
`phase[3:0]`), the decoder, total and rejecting reserved codes by name (R65), and the encoder. -/

namespace Sys2Proof

/-- Why a code decodes to no phase. -/
inductive DecodeError where
  /-- A reserved code, 9..15 (R65). -/
  | reservedPhase (code : PhaseCode)
  deriving DecidableEq, Repr

/-- One row of spec/opcode_table.json: the code and the mask that select a phase (R71). -/
structure PhaseRow where
  code : PhaseCode
  mask : PhaseCode
  instr : Instr
  deriving DecidableEq, Repr

/-- The table of R64. The reserved codes 9..15 have no row (R71). -/
def phaseTable : List PhaseRow :=
  [⟨0b0000#4, 0xF#4, .start⟩,
   ⟨0b0001#4, 0xF#4, .rxIdle⟩,
   ⟨0b0010#4, 0xF#4, .rxData⟩,
   ⟨0b0011#4, 0xF#4, .rxStop⟩,
   ⟨0b0100#4, 0xF#4, .pulseLongOn⟩,
   ⟨0b0101#4, 0xF#4, .pulseLongOff⟩,
   ⟨0b0110#4, 0xF#4, .txFrame⟩,
   ⟨0b0111#4, 0xF#4, .pulseShortOn⟩,
   ⟨0b1000#4, 0xF#4, .pulseShortOff⟩]

/-- The phase a code selects (R35, R64); a reserved code is rejected by name (R65). -/
def decode (w : PhaseCode) : Except DecodeError Instr :=
  match phaseTable.find? (fun r => w &&& r.mask == r.code) with
  | some r => .ok r.instr
  | none => .error (.reservedPhase w)

/-- The code of each phase (R64). -/
def encode : Instr → PhaseCode
  | .start => 0#4
  | .rxIdle => 1#4
  | .rxData => 2#4
  | .rxStop => 3#4
  | .pulseLongOn => 4#4
  | .pulseLongOff => 5#4
  | .txFrame => 6#4
  | .pulseShortOn => 7#4
  | .pulseShortOff => 8#4

/-- The code of each message (R66). -/
def MsgSel.code : MsgSel → Bit
  | .banner => 0#1
  | .reply => 1#1

/-- The message a one-bit `msg_sel` selects (R66). -/
def MsgSel.ofCode (b : Bit) : MsgSel := if b = 0#1 then .banner else .reply

/-- The phase code in an opcode-table word of `nbits` bits: `phase[3:0]`, the four least significant
bits, which are all that match and mask of R71 look at. Bits the word does not have are 0. -/
def tableWordCode (nbits w : Nat) : PhaseCode := BitVec.ofNat 4 (w % 2 ^ nbits)

/-- What the decoder reads from an opcode-table word. -/
def decodeTableWord (nbits w : Nat) : Option Instr :=
  match decode (tableWordCode nbits w) with
  | .ok i => some i
  | .error _ => none

end Sys2Proof
end

