-- ==== Sys2Proof/WellFormed.lean ====
section
/-! DEFINITION. Which configurations are legal (spec/00_scope.md R6, R7). The model has no machine for
an illegal one: a step refuses it by the flaw found (spec/60_exceptions.md R152,
`REFUSE_CONFIG(reason)`), the two vectors that break R7 included (log entry 7). The two widths: log
entry 10. A phase carries no operand, so every term of `Instr` is well formed. -/

namespace Sys2Proof

/-- Why a configuration is refused (R7; the two widths: R6). -/
inductive ConfigFlaw where
  /-- `BIT_CYCLES` is odd. -/
  | oddBitCycles
  /-- `BIT_CYCLES` is smaller than 2. -/
  | bitCyclesBelowTwo
  /-- `SHORT_CYCLES` is 0. -/
  | zeroShortCycles
  /-- `LONG_CYCLES` is 0. -/
  | zeroLongCycles
  /-- `LONG_CYCLES <= SHORT_CYCLES`. -/
  | longNotLonger
  /-- `BANNER` is empty. -/
  | emptyBanner
  /-- A 0x00 byte inside `BANNER`. -/
  | zeroInBanner
  /-- A 0x00 byte inside `REPLY_PREFIX`. -/
  | zeroInReplyPrefix
  /-- `CNT_WIDTH` is below the bit length of max(B + H - 1, L - 1, SH - 1). -/
  | narrowCounter
  /-- `IDX_WIDTH` is below the bit length of the larger message length less 1. -/
  | narrowIndex
  deriving DecidableEq, Repr

/-- The largest value `cnt` is loaded with (R6, R83): max(B + H - 1, L - 1, SH - 1). -/
def Config.maxCount (c : Config) : Nat :=
  max (c.bitCycles + c.bitCycles / 2 - 1) (max (c.longCycles - 1) (c.shortCycles - 1))

/-- The number of bytes of each message by the formulas of R41: the text, the reply's two further
bytes, and one for the sentinel where it is sent. -/
def Config.messageBytes (c : Config) : MsgSel → Nat
  | .banner => c.banner.length + c.sendSentinel.toNat
  | .reply => c.replyPrefix.length + 2 + c.sendSentinel.toNat

/-- The largest value `msg_idx` holds (R6). -/
def Config.maxIndex (c : Config) : Nat :=
  max (c.messageBytes .banner - 1) (c.messageBytes .reply - 1)

/-- A flaw of a configuration, or none where it is legal. R7 and R152 do not say which reason a
configuration with several flaws is refused for; the model gives the first one in the order of this
body, which tests `SHORT_CYCLES = 0` and `LONG_CYCLES = 0` before `LONG_CYCLES <= SHORT_CYCLES`
(DESIGN CHOICE, safe; log entry 11). A value has a bit length of at most w exactly when it is below
2^w. -/
def Config.flaw (c : Config) : Option ConfigFlaw :=
  if c.bitCycles % 2 = 1 then some .oddBitCycles
  else if c.bitCycles < 2 then some .bitCyclesBelowTwo
  else if c.shortCycles = 0 then some .zeroShortCycles
  else if c.longCycles = 0 then some .zeroLongCycles
  else if c.longCycles ≤ c.shortCycles then some .longNotLonger
  else if c.banner = [] then some .emptyBanner
  else if 0#8 ∈ c.banner then some .zeroInBanner
  else if 0#8 ∈ c.replyPrefix then some .zeroInReplyPrefix
  else if 2 ^ c.cntWidth ≤ c.maxCount then some .narrowCounter
  else if 2 ^ c.idxWidth ≤ c.maxIndex then some .narrowIndex
  else none

/-- A configuration within the legal values of R6. -/
abbrev Config.Legal (c : Config) : Prop := c.flaw = none

end Sys2Proof
end

