-- ==== Sys2Proof/Machine/State.lean ====
section
/-! DEFINITION. The state of the core as plain data: the registers of spec/10_state.md R23, the levels
on its input ports (R20), and what the model adds so that the outside world's inputs (R33, R182) and
the power-up interval (R31) are data. The core has no data memory, no address bus and no load/store
interface (spec/20_memory.md R40), so no memory stands here (log entry 9). -/

namespace Sys2Proof.Machine

/-- The registers of R23; there are no others. How each is represented: log entries 10 and 15. -/
structure Regs where
  /-- `phase`: which step of which operation the FSM performs (R25, R64). -/
  phase : PhaseCode
  /-- `cnt`: the Bit Timer and pulse down-counter, a natural number (R83). -/
  cnt : Nat
  /-- `rx_bit`: index of the next data bit the receiver samples. -/
  rxBit : BitVec 3
  /-- `rx_shift`: the byte being assembled. -/
  rxShift : Byte
  /-- `addr`: the last completely received address byte. -/
  addr : Byte
  /-- `tx_byte`: the byte the Frame Transmitter is sending. -/
  txByte : Byte
  /-- `tx_slot`: which of the 11 slots of the frame is on the line. -/
  txSlot : BitVec 4
  /-- `msg_sel`: which message is being sent (R66). -/
  msgSel : MsgSel
  /-- `msg_idx`: index of the message byte in `tx_byte`, a natural number. -/
  msgIdx : Nat
  /-- `pulse_n`: which of the two short pulses is running. -/
  pulseN : Bit
  /-- `tx_out`: the output register driving port `tx_out`; 1 is ACTIVE (R21, R28). -/
  txOut : Bit
  /-- `status_out`: the output register driving port `status_out`; 0 is on (R22, R28). -/
  statusOut : Bit
  deriving DecidableEq, Repr

/-- `RESET_STATE` of R30. -/
def Regs.reset : Regs :=
  { phase := 0#4, cnt := 0, rxBit := 0#3, rxShift := 0x00#8, addr := 0x00#8, txByte := 0x00#8,
    txSlot := 0#4, msgSel := .banner, msgIdx := 0, pulseN := 0#1, txOut := 0#1, statusOut := 1#1 }

/-- The registers of the node at a place drawn free at one edge of the power-up interval (R31, R157). -/
def Regs.powerUp (place n : Nat) : Regs :=
  { phase := Config.powerUpPhase place n, cnt := Config.powerUpCnt place n,
    rxBit := Config.powerUpRxBit place n, rxShift := Config.powerUpRxShift place n,
    addr := Config.powerUpAddr place n, txByte := Config.powerUpTxByte place n,
    txSlot := Config.powerUpTxSlot place n,
    msgSel := MsgSel.ofCode (Config.powerUpMsgSel place n),
    msgIdx := Config.powerUpMsgIdx place n, pulseN := Config.powerUpPulseN place n,
    txOut := Config.powerUpTxOut place n, statusOut := Config.powerUpStatusOut place n }

/-- The levels on the two sampled input ports at one edge (R8, R20). -/
structure Input where
  /-- `rst`: synchronous reset, active high (R170). -/
  rst : Bit
  /-- `rx_in`: the bus receive line; 1 is ACTIVE (R21). -/
  rx : Bit
  deriving DecidableEq, Repr

/-- Whether a reset edge has happened since power-up (R31, R152 `UNRESET`). -/
inductive Power where
  /-- `UNRESET`: no edge with `rst = 1` yet; the registers are free draws. -/
  | unreset
  /-- Reset has been applied; the rules of the spec hold. -/
  | up
  deriving DecidableEq, Repr

/-- The machine between two edges. The registers of R23 are inherited; `rst` and `rxIn` are the levels
the coming edge samples. The model's own fields: `cfg`, the build's parameters, which no step writes
(R6; log entry 1); `power` (R31; log entry 3); `stim` and `edge`, the inputs still to come and the
number of the next free draw (R33, R182; log entry 2); `place`, which tells the draws of the nodes of a
bus apart and which no step writes (R157; log entry 14). -/
structure State extends Regs where
  /-- The build-time configuration, an argument of the model (R6, R35). -/
  cfg : Config
  /-- Whether reset has been applied since power-up (R31). -/
  power : Power
  /-- Port `rst` at the coming edge. -/
  rst : Bit
  /-- Port `rx_in` at the coming edge. -/
  rxIn : Bit
  /-- Scripted inputs of the edges after the coming one, oldest first; free draws follow them. -/
  stim : List Input
  /-- Edges taken so far; it numbers the free draws. -/
  edge : Nat
  /-- The node's place on its bus, 0 for a core on its own; it tells nodes' free draws apart. -/
  place : Nat
  deriving DecidableEq, Repr

/-- What makes the machine stop. -/
inductive Fault where
  /-- `FAULT_RESERVED_PHASE(code)` (R152): raised by `step` alone, at an edge with `rst = 0` in a state
  whose `phase` is 9..15. SAFE: hardware in such a state does something the spec does not say. -/
  | reservedPhase (code : PhaseCode)
  deriving DecidableEq, Repr

/-- What the model has no machine or no meaning for. -/
inductive Refusal where
  /-- An arm of `exec` that has no meaning yet; no arm raises it now. SAFE. -/
  | notModelled (mnemonic : String)
  /-- `REFUSE_CONFIG(reason)` (R7, R152): raised by `step` on every state whose configuration is
  illegal, and by START where an illegal configuration leaves no byte to send. SAFE: the spec has no
  machine for such a configuration. -/
  | refuseConfig (reason : ConfigFlaw)
  deriving DecidableEq, Repr

/-- The outcome of a meaning or of a step. -/
abbrev Result := Host.Outcome State Fault Refusal

/-- `S[0]` (R8, R30) under a configuration: `RESET_STATE`, with `rst` released, as R8 says of edge 0.
`rx_in` is IDLE at edge 0, where START does not read it (DESIGN CHOICE, safe on a run from here;
log entry 4); nothing is scripted, so every later input is a free draw. -/
def State.resetOf (c : Config) : State :=
  { toRegs := Regs.reset, cfg := c, power := .up, rst := 0#1, rxIn := 0#1, stim := [], edge := 0,
    place := 0 }

/-- The machine right after reset, under the configuration of the spec's defaults (R6, R30;
log entry 1). -/
def State.reset : State := State.resetOf Config.vectorD

/-- A state of the power-up interval (R31) of the node at a place: no reset yet and every register a free
draw. -/
def State.powerUp (place : Nat) (c : Config) : State :=
  { toRegs := Regs.powerUp place 0, cfg := c, power := .unreset, rst := Config.freeRst place 0,
    rxIn := Config.freeRx place 0, stim := [], edge := 1, place := place }

end Sys2Proof.Machine
end

