-- ==== Sys2Proof/Machine/Operands.lean ====
section
/-! DEFINITION. The operands the phase rules read: bits and levels (spec/30_encoding.md R62, R63), the
wire frame (R60), the message texts (spec/20_memory.md R41, R42), and the half period
(spec/40_bit_timer.md R80). -/

namespace Sys2Proof.Machine

/-- `b[k]`: bit k of a byte (R9). -/
def bitAt (b : Byte) (k : Nat) : Bit := b.extractLsb' k 1

/-- `b[k] <- v`: the byte with bit k replaced (R10, R91). -/
def setBit (b : Byte) (k : BitVec 3) (v : Bit) : Byte :=
  (b &&& ~~~(1#8 <<< k)) ||| (v.setWidth 8 <<< k)

/-- The line level that carries a data bit: `1 - v` (R62). -/
def levelOfBit (v : Bit) : Bit := 1#1 - v

/-- The data bit a sampled level carries: `1 - x` (R62). -/
def bitOfLevel (x : Bit) : Bit := 1#1 - x

/-- `SlotLevel(b, slot)` (R60): the start bit ACTIVE, the data bits least significant first, the stop
bit and the gap IDLE. The rules ask for slots 0..10 only (DESIGN CHOICE beyond them, safe; log entry
13). -/
def slotLevel (b : Byte) (slot : BitVec 4) : Bit :=
  if slot = 0#4 then 1#1
  else if slot ≤ 8#4 then levelOfBit (bitAt b (slot.toNat - 1))
  else 0#1

/-- `H = B / 2` (R6, R80). -/
def halfCycles (c : Config) : Nat := c.bitCycles / 2

/-- The line feed that ends the reply's text (R41). -/
def lineFeed : Byte := 0x0A#8

/-- `Sent` of R41: the sentinel, where the policy sends it (R114). -/
def sentinel (c : Config) : List Byte := if c.sendSentinel then [0x00#8] else []

/-- `MsgSeq(sel)` (R41): the bytes of a message, a function of the configuration and of `addr`. -/
def msgSeq (c : Config) (addr : Byte) : MsgSel → List Byte
  | .banner => c.banner ++ sentinel c
  | .reply => c.replyPrefix ++ [addr] ++ [lineFeed] ++ sentinel c

/-- `MsgLen(sel) = |MsgSeq(sel)|` (R41). -/
def msgLen (s : State) (sel : MsgSel) : Nat := (msgSeq s.cfg s.addr sel).length

/-- `MsgByte(sel, i) = MsgSeq(sel)[i]` for `i < MsgLen(sel)` (R42), the core's only read of stored
data; none outside the sequence, where the rules never call it. -/
def msgByte (s : State) (sel : MsgSel) (i : Nat) : Option Byte := (msgSeq s.cfg s.addr sel)[i]?

end Sys2Proof.Machine
end

