-- ==== Sys2Proof/Machine/Flags.lean ====
section
/-! DEFINITION. The combinational conditions of spec/10_state.md R26. The core has no flag register:
each is a function of the state and the configuration, and none is stored. -/

namespace Sys2Proof.Machine

/-- `cnt_zero = (s.cnt == 0)`. -/
def cntZero (s : State) : Bool := s.cnt == 0

/-- `rx_last = (s.rx_bit == 7)`. -/
def rxLast (s : State) : Bool := s.rxBit == 7#3

/-- `frame_end = (s.tx_slot == 10)`. The rule of TX_FRAME tests `s.tx_slot < 10` instead (R112); the
two agree on the legal slots 0..10 (log entry 5). -/
def frameEnd (s : State) : Bool := s.txSlot == 10#4

/-- `msg_last = (s.msg_idx + 1 == MsgLen(s.msg_sel))`. The rule of TX_FRAME tests
`s.msg_idx + 1 < MsgLen(s.msg_sel)` instead (R115); the two agree on the legal indices (log entry 5). -/
def msgLast (s : State) : Bool := s.msgIdx + 1 == msgLen s s.msgSel

/-- `addr_match = (s.addr == NODE_ID)`: all 8 bits (R67, R136). -/
def addrMatch (s : State) : Bool := s.addr == s.cfg.nodeId

/-- `second_pulse = (s.pulse_n == 1)`. -/
def secondPulse (s : State) : Bool := s.pulseN == 1#1

end Sys2Proof.Machine
end

