-- ==== Sys2Proof/Machine/Ops.lean ====
section
/-! DEFINITION. The named operations the phase rules are made of: the next phase, the Bit Timer
(spec/40_bit_timer.md), the receiver's sample, the transmitter's entry primitives
(spec/42_transmitter.md R110, R111), reset (spec/70_reset_and_hazards.md R170), the power-up interval
(spec/10_state.md R31) and the inputs of the coming edges (R8, R182).

The core has no trap entry and no trap return (spec/60_exceptions.md R155, R156): the only event like
one is reset, which discards all register state. Every operation reads the state before the edge:
writes are non-blocking (spec/00_scope.md R10). -/

namespace Sys2Proof.Machine

/-- `s.phase <- P` (R10, R25). -/
def goto (i : Instr) (s : State) : State := { s with phase := encode i }

/-- Starts `Delay(n)`, n >= 1: `s.cnt <- n - 1` (R81). -/
def startDelay (n : Nat) (s : State) : State := { s with cnt := n - 1 }

/-- `CountStep` of R81: while `cnt` is not 0 an edge only decrements it; at 0 the phase's completion
action runs. -/
def countStep (s : State) (done : Result) : Result :=
  if cntZero s then done else .next { s with cnt := s.cnt - 1 }

/-- `s.rx_shift[s.rx_bit] <- 1 - rx` (R91). -/
def takeSample (s : State) : State :=
  { s with rxShift := setBit s.rxShift s.rxBit (bitOfLevel s.rxIn) }

/-- Drives the indicator: 0 is on, 1 is off (R22). -/
def setStatus (v : Bit) (s : State) : State := { s with statusOut := v }

/-- `LoadFrame(s, b)` (R110). -/
def loadFrame (b : Byte) (s : State) : State :=
  startDelay s.cfg.bitCycles { s with txByte := b, txSlot := 0#4, txOut := slotLevel b 0#4 }

/-- Loads the frame of byte i of a message and notes both in `msg_sel` and `msg_idx` (R111, R115).
Under a legal configuration the rules never ask for a byte outside the message (R42); START alone can
find none, where an illegal configuration has an empty banner and no sentinel (R7; log entry 11). -/
def loadMsgByte (sel : MsgSel) (i : Nat) (s : State) : Result :=
  match msgByte s sel i with
  | some b => .next (loadFrame b { s with msgSel := sel, msgIdx := i })
  | none => .refused (.refuseConfig .emptyBanner)

/-- `StartMessage(s, sel)` (R111). -/
def startMessage (sel : MsgSel) (s : State) : Result := loadMsgByte sel 0 (goto .txFrame s)

/-- A reset edge (R170): every register takes its value of `RESET_STATE` (R30), whatever it held, and
the power-up interval is over (R31). -/
def applyReset (s : State) : State := { s with toRegs := Regs.reset, power := .up }

/-- An edge of the power-up interval without reset: the registers are unspecified after it as before
it (R31, R173), so each is drawn afresh, for each node of a bus by itself (R157; log entries 3 and
14). -/
def powerUpEdge (s : State) : State := { s with toRegs := Regs.powerUp s.place s.edge }

/-- The levels on the input ports after the coming edge: the next scripted input, or a free draw where
none is scripted (R33, R182). -/
def nextInput (s : State) : Input :=
  match s.stim with
  | i :: _ => i
  | [] => ⟨Config.freeRst s.place s.edge, Config.freeRx s.place s.edge⟩

/-- Ends an edge: the input ports show the levels of the next one. -/
def nextEdge (s : State) : State :=
  { s with rst := (nextInput s).rst, rxIn := (nextInput s).rx, stim := s.stim.tail,
           edge := s.edge + 1 }

/-- Ends an edge after a phase's meaning: only a next state goes on. -/
def finishEdge (r : Result) : Result :=
  match r with
  | .next s => .next (nextEdge s)
  | .fault e => .fault e
  | .refused e => .refused e

/-- The fault a reserved phase code raises (R65, R152). -/
def decodeFault : DecodeError → Fault
  | .reservedPhase code => .reservedPhase code

/-- `rst@(n+j)` and `rx_in@(n+j)`, for a state `S[n]`: what the j-th edge from now samples (R8). -/
def inputAt (s : State) : Nat → Input
  | 0 => ⟨s.rst, s.rxIn⟩
  | j + 1 =>
    (s.stim[j]?).getD ⟨Config.freeRst s.place (s.edge + j), Config.freeRx s.place (s.edge + j)⟩

end Sys2Proof.Machine
end

