-- ==== Sys2Proof/Machine/NodeDispatch.lean ====
section
/-! DEFINITION. The startup and Node Dispatch Loop's phases (spec/43_dispatch.md R131 to R135). -/

namespace Sys2Proof.Machine

/-- START (R131): begins the banner; `rx_in` is not read. -/
def execStart (s : State) : Result := startMessage .banner s

/-- The end of a pulse's on phase: the indicator goes off for an equal time (R132, R134). -/
def pulseOff (n : Nat) (next : Instr) (s : State) : State :=
  startDelay n (setStatus 1#1 (goto next s))

/-- PULSE_LONG_ON (R132): the on phase of the long pulse. -/
def execPulseLongOn (s : State) : Result :=
  countStep s (.next (pulseOff s.cfg.longCycles .pulseLongOff s))

/-- PULSE_LONG_OFF (R133): the off phase, then the compare. A match starts the reply at this edge; a
mismatch returns to RX_IDLE with no output at all. -/
def execPulseLongOff (s : State) : Result :=
  countStep s (if addrMatch s then startMessage .reply s else .next (goto .rxIdle s))

/-- PULSE_SHORT_ON (R134): the on phase of a short pulse. -/
def execPulseShortOn (s : State) : Result :=
  countStep s (.next (pulseOff s.cfg.shortCycles .pulseShortOff s))

/-- PULSE_SHORT_OFF (R135): the off phase; the first pulse starts the second, the second returns to
RX_IDLE. -/
def execPulseShortOff (s : State) : Result :=
  countStep s
    (if secondPulse s then .next (goto .rxIdle { s with pulseN := 0#1 })
    else
      .next (startDelay s.cfg.shortCycles (setStatus 0#1 (goto .pulseShortOn { s with pulseN := 1#1 }))))

end Sys2Proof.Machine
end

