-- ==== Sys2Proof/Machine/Receiver.lean ====
section
/-! DEFINITION. The Frame Receiver's three phases (spec/41_receiver.md R90, R91, R92). -/

namespace Sys2Proof.Machine

/-- RX_IDLE (R90): a level test at every edge. An ACTIVE sample is the detection edge and starts
`Delay(H + B)`; an IDLE sample writes nothing, and the wait has no bound (R97). -/
def execRxIdle (s : State) : Result :=
  if s.rxIn = 1#1 then
    .next (startDelay (halfCycles s.cfg + s.cfg.bitCycles)
      (goto .rxData { s with rxShift := 0x00#8, rxBit := 0#3 }))
  else .next s

/-- RX_DATA (R91): at the centre of data bit `rx_bit` the sample is written to that bit of `rx_shift`;
bit 7 starts `Delay(B + H)` in RX_STOP, any other starts `Delay(B)` for the next bit. -/
def execRxData (s : State) : Result :=
  countStep s
    (if rxLast s then
      .next (startDelay (s.cfg.bitCycles + halfCycles s.cfg) (goto .rxStop (takeSample s)))
    else .next (startDelay s.cfg.bitCycles { takeSample s with rxBit := s.rxBit + 1#3 }))

/-- RX_STOP (R92): the stop bit passes unread; then the byte is delivered and the long pulse begins. -/
def execRxStop (s : State) : Result :=
  countStep s
    (.next (startDelay s.cfg.longCycles
      (setStatus 0#1 (goto .pulseLongOn { s with addr := s.rxShift }))))

end Sys2Proof.Machine
end

