-- ==== Sys2Proof/Machine/Transmitter.lean ====
section
/-! DEFINITION. The Frame and Message Transmitter's phase (spec/42_transmitter.md R112, R115). -/

namespace Sys2Proof.Machine

/-- The next slot of the frame (R112). -/
def nextSlot (s : State) : State :=
  startDelay s.cfg.bitCycles
    { s with txSlot := s.txSlot + 1#4, txOut := slotLevel s.txByte (s.txSlot + 1#4) }

/-- `FrameEnd(s)` (R115): the next byte of the message at this same edge; or, after the last one,
RX_IDLE for the banner and the first short pulse for the reply. `tx_out` stays IDLE from the gap. -/
def endFrame (s : State) : Result :=
  if s.msgIdx + 1 < msgLen s s.msgSel then loadMsgByte s.msgSel (s.msgIdx + 1) s
  else
    match s.msgSel with
    | .banner => .next (goto .rxIdle s)
    | .reply =>
      .next (startDelay s.cfg.shortCycles (setStatus 0#1 (goto .pulseShortOn { s with pulseN := 0#1 })))

/-- TX_FRAME (R112, R115): each slot is held for one bit period; slot 10 ends the frame. -/
def execTxFrame (s : State) : Result :=
  countStep s (if s.txSlot < 10#4 then .next (nextSlot s) else endFrame s)

end Sys2Proof.Machine
end

