-- ==== Sys2Proof/Machine/Dispatch.lean ====
section
/-! DEFINITION. One arm per phase of R64: the case distinction of `Step` (spec/10_state.md R35). -/

namespace Sys2Proof.Machine

def exec (i : Instr) (s : State) : Host.Outcome State Fault Refusal :=
  match i with
  | .start => Sys2Proof.Machine.execStart s
  | .rxIdle => Sys2Proof.Machine.execRxIdle s
  | .rxData => Sys2Proof.Machine.execRxData s
  | .rxStop => Sys2Proof.Machine.execRxStop s
  | .pulseLongOn => Sys2Proof.Machine.execPulseLongOn s
  | .pulseLongOff => Sys2Proof.Machine.execPulseLongOff s
  | .txFrame => Sys2Proof.Machine.execTxFrame s
  | .pulseShortOn => Sys2Proof.Machine.execPulseShortOn s
  | .pulseShortOff => Sys2Proof.Machine.execPulseShortOff s

end Sys2Proof.Machine
end

