-- ==== Sys2Proof/Machine/Step.lean ====
section
/-! DEFINITION. One rising edge of `clk` (spec/10_state.md R35, spec/60_exceptions.md R152, R154). -/

namespace Sys2Proof.Machine

/-- `Step` of R35. An illegal configuration has no machine (R7; log entry 11). `rst = 1` takes priority over
everything (R154, R170). Before the first reset the registers stay unspecified (R31). Otherwise
exactly one phase rule runs, and a reserved code faults (R65). Then the inputs of the next edge stand
on the ports. -/
def step (s : State) : Host.Outcome State Fault Refusal :=
  match s.cfg.flaw with
  | some reason => .refused (.refuseConfig reason)
  | none =>
    if s.rst = 1#1 then .next (nextEdge (applyReset s))
    else
      match s.power with
      | .unreset => .next (nextEdge (powerUpEdge s))
      | .up =>
        match decode s.phase with
        | .error e => .fault (decodeFault e)
        | .ok i => finishEdge (exec i s)

/-- The state with an opcode-table word where `step` decodes its next phase: the register `phase`. The
phase of the coming edge runs exactly when the machine has been reset and `rst` is low at that edge
(R31, R154), so both are set; nothing else is changed (log entry 4). -/
def State.withFetchWord (s : State) (nbits w : Nat) : State :=
  { s with phase := tableWordCode nbits w, power := .up, rst := 0#1 }

end Sys2Proof.Machine
end

