-- ==== Sys2Proof/Machine/Bus.lean ====
section
/-! DEFINITION. The multi-drop bus (spec/60_exceptions.md R157, R158): independent nodes that share
only line levels, beside a requester. Two agents driving a line at once leave its level free (R157).
The platform's clocks are equal and ideal (R85, R180; log entry 8): one bus edge is one edge of every
node. How the draws of several nodes are numbered: log entry 14. -/

namespace Sys2Proof.Machine

/-- What one agent puts on a line during an interval: whether it drives it, and at which level. -/
structure Drive where
  driving : Bool
  level : Bit
  deriving DecidableEq, Repr

/-- A node drives its transmit line while it sends a frame, in TX_FRAME (DEDUCED; log entry 6). -/
def nodeDrive (s : State) : Drive :=
  { driving := s.phase == encode .txFrame, level := s.txOut }

/-- The level of a line (R157): IDLE with no driver, the driver's level with one, and a free draw with
two or more; neither a wired AND nor a wired OR. -/
def lineLevel (drives : List Drive) (free : Bit) : Bit :=
  match drives.filter (fun d => d.driving) with
  | [] => 0#1
  | [d] => d.level
  | _ :: _ :: _ => free

/-- A bus: its topology (R158), its nodes, each a machine of its own (R157), and the number of edges
taken, which numbers the free draws. -/
structure Bus where
  topology : Topology
  nodes : List State
  edge : Nat
  deriving DecidableEq, Repr

/-- The agents that may drive the nodes' receive line (R158): the requester alone under SPLIT; the
requester and every node under SHARED, where the one shared wire is each node's own transmit line too,
so that a node that drives it beside another driver sees the free draw of R157. A lone driver sees its
own level, which it does not read (R98; DEDUCED; log entry 6). -/
def Bus.drivers (b : Bus) (requester : Drive) : List Drive :=
  match b.topology with
  | .split => [requester]
  | .shared => requester :: b.nodes.map nodeDrive

/-- The level node k sees on `rx_in` at the coming edge. -/
def Bus.rxLevel (b : Bus) (requester : Drive) (k : Nat) : Bit :=
  lineLevel (b.drivers requester) (Config.freeContention b.edge k)

/-- The level the requester sees at the coming edge (R158): under SPLIT the nodes' response line, under
SHARED the one shared line. -/
def Bus.requesterLevel (b : Bus) (requester : Drive) : Bit :=
  match b.topology with
  | .split => lineLevel (b.nodes.map nodeDrive) (Config.freeContention b.edge b.nodes.length)
  | .shared =>
    lineLevel (requester :: b.nodes.map nodeDrive) (Config.freeContention b.edge b.nodes.length)

/-- A node at its place on the bus, with a level on its receive line. The place keeps its free draws
apart from the other nodes' (R157; log entry 14). -/
def State.onBus (place : Nat) (level : Bit) (s : State) : State := { s with rxIn := level, place := place }

/-- Nodes k, k+1, … take one edge, each with its own level on `rx_in` and its own `rst`. Where a node
faults or is refused, the edge of the whole bus ends with the fault or refusal of the first such node,
so the other nodes stop too: the spec does not say what a bus does then (DESIGN CHOICE, safe; log entry
16). -/
def stepNodes (level : Nat → Bit) : Nat → List State → Host.Outcome (List State) Fault Refusal
  | _, [] => .next []
  | k, s :: rest =>
    match step (s.onBus k (level k)) with
    | .fault e => .fault e
    | .refused e => .refused e
    | .next t =>
      match stepNodes level (k + 1) rest with
      | .fault e => .fault e
      | .refused e => .refused e
      | .next ts => .next (t :: ts)

/-- A bus at power-up: node k has the k-th configuration, and its registers are draws of its own (R31,
R157, R174). -/
def Bus.powerUp (topology : Topology) (cfgs : List Config) : Bus :=
  { topology := topology, nodes := cfgs.mapIdx State.powerUp, edge := 0 }

/-- One edge of every node. All nodes sample the levels the others held before the edge (R28). -/
def Bus.step (b : Bus) (requester : Drive) : Host.Outcome Bus Fault Refusal :=
  match stepNodes (b.rxLevel requester) 0 b.nodes with
  | .next ts => .next { b with nodes := ts, edge := b.edge + 1 }
  | .fault e => .fault e
  | .refused e => .refused e

end Sys2Proof.Machine
end

