-- ==== Sys2Proof/Safety.lean ====
section
/-! DEFINITION. What a run is and what holds all along it: the premises of a claim about the core
(spec/10_state.md R31, spec/70_reset_and_hazards.md R173, R183), the run over a finite number of
edges, and the invariant of the states reached from `RESET_STATE` (R32, R43, R117, R140). -/

namespace Sys2Proof.Machine

/-- The state `S[n]` that `n` edges lead to, stopping at the first fault or refusal (R8, R183). -/
def edges : Nat → State → Result
  | 0, s => .next s
  | n + 1, s =>
    match step s with
    | .next t => edges n t
    | .fault e => .fault e
    | .refused e => .refused e

/-- The coming edge runs a phase rule: the configuration is legal (R7), reset was applied (R173), and
`rst` is low (R154). -/
abbrev State.Live (s : State) : Prop :=
  s.cfg.Legal ∧ s.power = .up ∧ s.rst = 0#1

/-- Each of the coming n edges runs a phase rule: `rst` is low at all of them. -/
abbrev State.LiveFor (s : State) (n : Nat) : Prop :=
  s.cfg.Legal ∧ s.power = .up ∧ ∀ j < n, (inputAt s j).rst = 0#1

/-- Everything but the registers of R23 is as it was: the build's parameters (R6), the power-up mark, the
input ports and the inputs to come. -/
abbrev State.SameEnvironment (t s : State) : Prop :=
  t.cfg = s.cfg ∧ t.power = s.power ∧ t.rst = s.rst ∧ t.rxIn = s.rxIn ∧ t.stim = s.stim ∧
    t.edge = s.edge ∧ t.place = s.place

/-- What port `tx_out` shows after n more edges (R28); none if the run stops before. -/
def txLine (n : Nat) (s : State) : Option Bit :=
  match edges n s with
  | .next t => some t.txOut
  | .fault _ => none
  | .refused _ => none

/-- The state after the edge at which `LoadFrame` ran (R110): slot 0 of a frame has begun. -/
abbrev State.FrameBegun (s : State) : Prop :=
  s.phase = encode .txFrame ∧ s.txSlot = 0#4 ∧ s.txOut = 1#1 ∧ s.cnt = s.cfg.bitCycles - 1

/-- The state after the edge at which `StartMessage` ran (R111). -/
abbrev State.MessageBegun (s : State) : Prop :=
  s.FrameBegun ∧ s.msgIdx = 0 ∧ msgByte s s.msgSel 0 = some s.txByte

/-- The state after the edge that delivered a byte (R92): the long pulse has begun. -/
abbrev State.LongPulseBegun (s : State) : Prop :=
  s.phase = encode .pulseLongOn ∧ s.cnt = s.cfg.longCycles - 1 ∧ s.statusOut = 0#1

/-- The state after the edge that ended a reply (R115): the first short pulse has begun. -/
abbrev State.ShortPulsesBegun (s : State) : Prop :=
  s.phase = encode .pulseShortOn ∧ s.cnt = s.cfg.shortCycles - 1 ∧ s.pulseN = 0#1 ∧
    s.statusOut = 0#1

/-- The largest value of `cnt` in a phase (R32). -/
def cntBound (c : Config) : Instr → Nat
  | .start => 0
  | .rxIdle => 0
  | .rxData => c.bitCycles + halfCycles c - 1
  | .rxStop => c.bitCycles + halfCycles c - 1
  | .pulseLongOn => c.longCycles - 1
  | .pulseLongOff => c.longCycles - 1
  | .txFrame => c.bitCycles - 1
  | .pulseShortOn => c.shortCycles - 1
  | .pulseShortOff => c.shortCycles - 1

/-- The indicator's level in a phase (R140): on in the two on phases, off in every other. -/
def statusLevel : Instr → Bit
  | .start => 1#1
  | .rxIdle => 1#1
  | .rxData => 1#1
  | .rxStop => 1#1
  | .pulseLongOn => 0#1
  | .pulseLongOff => 1#1
  | .txFrame => 1#1
  | .pulseShortOn => 0#1
  | .pulseShortOff => 1#1

/-- In phase i: `cnt` is within its bound and the indicator at its level; outside TX_FRAME the line is
IDLE (R117), and in TX_FRAME the line carries the current slot of the current byte of the message
(R60, R113), and a reply echoes an address that matched (R43, R133). -/
abbrev State.PhaseInv (s : State) (i : Instr) : Prop :=
  s.cnt ≤ cntBound s.cfg i ∧ s.statusOut = statusLevel i ∧
  (i ≠ .txFrame → s.txOut = 0#1) ∧
  (i = .txFrame → s.txOut = slotLevel s.txByte s.txSlot ∧
    msgByte s s.msgSel s.msgIdx = some s.txByte ∧ (s.msgSel = .reply → s.addr = s.cfg.nodeId))

/-- The invariant of the states reached from `RESET_STATE` (R23's legal values, R32, R117, R140): the
phase is one of the nine, `tx_slot` and `msg_idx` are in range, and `PhaseInv` holds. It says nothing
before the first reset (R31). -/
abbrev State.Inv (s : State) : Prop :=
  s.power = .up →
    s.txSlot ≤ 10#4 ∧ s.msgIdx < msgLen s s.msgSel ∧
    ∃ i, s.phase = encode i ∧ s.PhaseInv i

end Sys2Proof.Machine
end

