-- ==== Sys2Proof/Certificates/Slice0/Obligations.lean ====
section
/-! DEFINITION. The statements for the provers, each from numbered rules of spec/. They are about every
state, so about every legal configuration and every sequence of inputs: the configuration and the
inputs to come stand in the state (log entries 1 and 2). -/

open Sys2Proof Sys2Proof.Machine

/-! ## Configuration, reset and the step -/

/-- From R6, R7 and R152: every step under a configuration outside the legal values of R6 is refused as
such, and nothing else is ever refused. That the refusal comes first, at reset edges too, is the model's
choice (DESIGN CHOICE, log entry 11), and that too narrow a width is refused is read from R6 (DEDUCED,
log entry 10). -/
def Obligations.ExactlyIllegalConfigurationsAreRefused : Prop :=
  ∀ s : State,
    (∀ r, step s = .refused r → ∃ reason, r = .refuseConfig reason) ∧
    ((∃ r, step s = .refused r) ↔
      ¬ (s.cfg.bitCycles % 2 = 0 ∧ 2 ≤ s.cfg.bitCycles ∧ 1 ≤ s.cfg.shortCycles ∧
          s.cfg.shortCycles < s.cfg.longCycles ∧ s.cfg.banner ≠ [] ∧
          (∀ b ∈ s.cfg.banner, b ≠ 0#8) ∧ (∀ b ∈ s.cfg.replyPrefix, b ≠ 0#8) ∧
          s.cfg.bitCycles + s.cfg.bitCycles / 2 - 1 < 2 ^ s.cfg.cntWidth ∧
          s.cfg.longCycles - 1 < 2 ^ s.cfg.cntWidth ∧ s.cfg.shortCycles - 1 < 2 ^ s.cfg.cntWidth ∧
          msgLen s .banner - 1 < 2 ^ s.cfg.idxWidth ∧ msgLen s .reply - 1 < 2 ^ s.cfg.idxWidth))

/-- R170: at every edge with `rst = 1` the next state is `RESET_STATE`, whatever the phase (reserved
codes included), the other registers and `rx_in` are, before the first reset too. -/
def Obligations.ResetEdgeGivesResetState : Prop :=
  ∀ s : State, s.cfg.Legal → s.rst = 1#1 →
    ∃ t, step s = .next t ∧ t.power = .up ∧ t.cfg = s.cfg ∧
      t.toRegs = { phase := 0#4, cnt := 0, rxBit := 0#3, rxShift := 0x00#8, addr := 0x00#8,
                   txByte := 0x00#8, txSlot := 0#4, msgSel := .banner, msgIdx := 0, pulseN := 0#1,
                   txOut := 0#1, statusOut := 1#1 }

/-- R30: the values of `RESET_STATE`, register by register, in the machine's reset state and in that of
every configuration. -/
def Obligations.ResetStateHoldsTheSpecifiedValues : Prop :=
  ∀ c : Config, ∀ s ∈ [State.reset, State.resetOf c],
    s.phase = 0#4 ∧ s.cnt = 0 ∧ s.rxBit = 0#3 ∧ s.rxShift = 0#8 ∧ s.addr = 0#8 ∧ s.txByte = 0#8 ∧
      s.txSlot = 0#4 ∧ s.msgSel.code = 0#1 ∧ s.msgIdx = 0 ∧ s.pulseN = 0#1 ∧ s.txOut = 0#1 ∧
      s.statusOut = 1#1

/-- R31, R173, with log entry 3 (the model's reading: a fresh draw at every edge): without a reset edge
the power-up interval goes on, and the registers after each of its edges are free values. -/
def Obligations.PowerUpRegistersAreFreeDraws : Prop :=
  ∀ s : State, s.cfg.Legal → s.power = .unreset → s.rst = 0#1 →
    ∃ t, step s = .next t ∧ t.power = .unreset ∧ t.cfg = s.cfg ∧
      t.toRegs = Regs.powerUp s.place s.edge

/-- From R65 and R152: a step faults exactly at an edge without reset, after reset was applied, under a
legal configuration, in a state with a reserved phase code, and the fault carries that code. That a
reserved code drawn before the first reset is no fault is the model's reading (DEDUCED, log entry 3;
vector L2-Z4 says "any state"), and that an illegal configuration is refused before the fault is its
choice (DESIGN CHOICE, log entry 11). -/
def Obligations.FaultsAreExactlyReservedPhases : Prop :=
  ∀ (s : State) (f : Fault),
    step s = .fault f ↔ s.Live ∧ 9#4 ≤ s.phase ∧ f = .reservedPhase s.phase

/-- R35, R154: at a live edge whose phase decodes to i, the step is exactly the meaning of i; then the
ports show the next inputs. A stop of the meaning is the stop of the step. -/
def Obligations.StepRunsTheDecodedPhase : Prop :=
  ∀ (s : State) (i : Instr), s.Live → decode s.phase = .ok i →
    (∀ u, exec i s = .next u → step s = .next (nextEdge u)) ∧
    (∀ f, exec i s = .fault f → step s = .fault f) ∧
    (∀ r, exec i s = .refused r → step s = .refused r)

/-- R8, R33, R182, with log entry 2: a step uses one input; after any step, the inputs still to come are
the ones that followed, and the draw number has advanced. -/
def Obligations.EachEdgeConsumesOneInput : Prop :=
  ∀ s t : State, step s = .next t →
    t.edge = s.edge + 1 ∧ ∀ j, inputAt t j = inputAt s (j + 1)

/-- R6, R27: no step changes a parameter. -/
def Obligations.ConfigurationNeverChanges : Prop :=
  ∀ s t : State, step s = .next t → t.cfg = s.cfg

/-- R150: under a legal configuration every phase rule completes, in every state: no phase raises an
exception. -/
def Obligations.EveryPhaseRuleCompletes : Prop :=
  ∀ (i : Instr) (s : State), s.cfg.Legal → ∃ t, exec i s = .next t

/-! ## Encodings and stored texts -/

/-- R64: the nine codes and the reserved ones, written out in binary. -/
def Obligations.PhaseCodesDecodeAsTabled : Prop :=
  decode 0b0000#4 = .ok .start ∧ decode 0b0001#4 = .ok .rxIdle ∧ decode 0b0010#4 = .ok .rxData ∧
  decode 0b0011#4 = .ok .rxStop ∧ decode 0b0100#4 = .ok .pulseLongOn ∧
  decode 0b0101#4 = .ok .pulseLongOff ∧ decode 0b0110#4 = .ok .txFrame ∧
  decode 0b0111#4 = .ok .pulseShortOn ∧ decode 0b1000#4 = .ok .pulseShortOff ∧
  ∀ w : PhaseCode, 9#4 ≤ w → decode w = .error (.reservedPhase w)

/-- R64, R71: decode and encode agree on every phase and every code, and an opcode-table word decodes to
a phase exactly when its bits 3..0 are that phase's code. -/
def Obligations.DecodeAndEncodeAgree : Prop :=
  (∀ i, decode (encode i) = .ok i) ∧ (∀ w i, decode w = .ok i → encode i = w) ∧
  ∀ (nbits w : Nat) (i : Instr),
    decodeTableWord nbits w = some i ↔ w % 2 ^ nbits % 16 = (encode i).toNat

/-- R35, R64: a decodable word placed in the phase register is what the very next step runs. -/
def Obligations.PlacedWordIsTheNextPhaseRun : Prop :=
  ∀ (s : State) (nbits w : Nat) (i : Instr), s.cfg.Legal → decodeTableWord nbits w = some i →
    ∃ u, exec i (s.withFetchWord nbits w) = .next u ∧
      step (s.withFetchWord nbits w) = .next (nextEdge u)

/-- R60, R45: the level of each slot of a frame, from the byte's bits. -/
def Obligations.FrameSlotsCarryTheByte : Prop :=
  ∀ b : Byte,
    slotLevel b 0#4 = 1#1 ∧
    (∀ k < 8, slotLevel b (BitVec.ofNat 4 (k + 1)) = if b.getLsbD k then 0#1 else 1#1) ∧
    slotLevel b 9#4 = 0#1 ∧ slotLevel b 10#4 = 0#1

/-- R62, R63: sampling a frame's eight data slots in order into `rx_shift` gives the byte sent, whatever
`rx_shift` held. -/
def Obligations.ByteAssemblyInvertsTheFrame : Prop :=
  ∀ b x : Byte,
    (List.range 8).foldl
      (fun v k => setBit v (BitVec.ofNat 3 k) (bitOfLevel (slotLevel b (BitVec.ofNat 4 (k + 1))))) x = b

/-- R41, R42, R119: the bytes of both messages by index. The reply's byte after the prefix is the
register `addr`, whatever its value; then the line feed; a 0x00 byte ends a message exactly where
`SEND_SENTINEL` is true. That `msgByte` answers no byte at and past a message's end, where R42 leaves
`MsgByte` undefined, is the model's choice (DESIGN CHOICE, log entry 13). -/
def Obligations.MessageBytesByIndex : Prop :=
  ∀ (s : State) (i : Nat),
    (i < s.cfg.banner.length → msgByte s .banner i = s.cfg.banner[i]?) ∧
    msgByte s .banner s.cfg.banner.length = (if s.cfg.sendSentinel then some 0x00#8 else none) ∧
    (s.cfg.banner.length < i → msgByte s .banner i = none) ∧
    (i < s.cfg.replyPrefix.length → msgByte s .reply i = s.cfg.replyPrefix[i]?) ∧
    msgByte s .reply s.cfg.replyPrefix.length = some s.addr ∧
    msgByte s .reply (s.cfg.replyPrefix.length + 1) = some 0x0A#8 ∧
    msgByte s .reply (s.cfg.replyPrefix.length + 2) =
      (if s.cfg.sendSentinel then some 0x00#8 else none) ∧
    (s.cfg.replyPrefix.length + 2 < i → msgByte s .reply i = none)

/-- R41, R69: a message's length is fixed by the configuration alone (no register changes it); a legal
banner has a byte and a reply has two. -/
def Obligations.MessageLengthIsFixedByConfiguration : Prop :=
  ∀ (s t : State) (sel : MsgSel), s.cfg = t.cfg →
    msgLen s sel = msgLen t sel ∧ 2 ≤ msgLen s .reply ∧ (s.cfg.Legal → 1 ≤ msgLen s .banner)

/-! ## The nine phases -/

/-- R131 (with R110, R111): START begins the banner's first frame and writes nothing else; no phase rule
enters START. -/
def Obligations.StartBeginsTheBanner : Prop :=
  (∀ s : State, s.cfg.Legal →
    ∃ b, s.cfg.banner.head? = some b ∧
      exec .start s = .next { s with phase := 6#4, msgSel := .banner, msgIdx := 0, txByte := b,
                                     txSlot := 0#4, txOut := 1#1, cnt := s.cfg.bitCycles - 1 }) ∧
  ∀ (i : Instr) (s t : State), s.phase = encode i → exec i s = .next t → t.phase ≠ 0#4

/-- R90: RX_IDLE starts a frame at an ACTIVE sample and writes no field at an IDLE one. -/
def Obligations.RxIdleDetectsOrWaits : Prop :=
  ∀ s : State,
    (s.rxIn = 1#1 → exec .rxIdle s =
      .next { s with rxShift := 0x00#8, rxBit := 0#3, phase := 2#4,
                     cnt := s.cfg.bitCycles / 2 + s.cfg.bitCycles - 1 }) ∧
    (s.rxIn = 0#1 → exec .rxIdle s = .next s)

/-- R91: RX_DATA counts; at 0 it writes `1 - rx` to bit `rx_bit` of `rx_shift` and to no other bit, then
goes on to the next bit or, after bit 7, to RX_STOP. -/
def Obligations.RxDataCountsAndSamples : Prop :=
  ∀ s : State,
    (s.cnt ≠ 0 → exec .rxData s = .next { s with cnt := s.cnt - 1 }) ∧
    (s.cnt = 0 → ∃ shift : Byte,
      (∀ j < 8, shift.getLsbD j =
        if j = s.rxBit.toNat then decide (s.rxIn = 0#1) else s.rxShift.getLsbD j) ∧
      (s.rxBit = 7#3 → exec .rxData s =
        .next { s with rxShift := shift, phase := 3#4,
                       cnt := s.cfg.bitCycles + s.cfg.bitCycles / 2 - 1 }) ∧
      (s.rxBit ≠ 7#3 → ∃ k : BitVec 3, k.toNat = s.rxBit.toNat + 1 ∧ exec .rxData s =
        .next { s with rxShift := shift, rxBit := k, cnt := s.cfg.bitCycles - 1 }))

/-- R92: RX_STOP counts; at 0 it delivers the byte and begins the long pulse, whatever `rx_in` is. -/
def Obligations.RxStopDeliversTheByte : Prop :=
  ∀ s : State,
    (s.cnt ≠ 0 → exec .rxStop s = .next { s with cnt := s.cnt - 1 }) ∧
    (s.cnt = 0 → exec .rxStop s =
      .next { s with addr := s.rxShift, statusOut := 0#1, cnt := s.cfg.longCycles - 1, phase := 4#4 })

/-- R132: PULSE_LONG_ON counts; at 0 the indicator goes off for an equal time. It is entered only from
RX_STOP, with `cnt` and the indicator set, after every delivered byte. -/
def Obligations.PulseLongOnEndsInOff : Prop :=
  (∀ s : State,
    (s.cnt ≠ 0 → exec .pulseLongOn s = .next { s with cnt := s.cnt - 1 }) ∧
    (s.cnt = 0 → exec .pulseLongOn s =
      .next { s with statusOut := 1#1, cnt := s.cfg.longCycles - 1, phase := 5#4 })) ∧
  ∀ (i : Instr) (s t : State), s.phase = encode i → exec i s = .next t → s.phase ≠ 4#4 →
    (t.phase = 4#4 ↔ i = .rxStop ∧ s.cnt = 0) ∧
    (t.phase = 4#4 → t.statusOut = 0#1 ∧ t.cnt = s.cfg.longCycles - 1)

/-- R133 (with R110, R111): PULSE_LONG_OFF counts; at 0 a match of all 8 bits begins the reply's first
frame, and a mismatch writes the phase alone. -/
def Obligations.PulseLongOffComparesTheAddress : Prop :=
  ∀ s : State,
    (s.cnt ≠ 0 → exec .pulseLongOff s = .next { s with cnt := s.cnt - 1 }) ∧
    (s.cnt = 0 → s.addr = s.cfg.nodeId →
      ∃ b, (s.cfg.replyPrefix ++ [s.addr]).head? = some b ∧ exec .pulseLongOff s =
        .next { s with phase := 6#4, msgSel := .reply, msgIdx := 0, txByte := b, txSlot := 0#4,
                       txOut := 1#1, cnt := s.cfg.bitCycles - 1 }) ∧
    (s.cnt = 0 → s.addr ≠ s.cfg.nodeId → exec .pulseLongOff s = .next { s with phase := 1#4 })

/-- R112: within a frame TX_FRAME holds the slot while `cnt` is not 0, then drives the next slot's level:
ACTIVE exactly for a data bit 0. -/
def Obligations.TxFrameHoldsAndAdvancesSlots : Prop :=
  ∀ s : State,
    (s.cnt ≠ 0 → exec .txFrame s = .next { s with cnt := s.cnt - 1 }) ∧
    (s.cnt = 0 → s.txSlot < 10#4 →
      ∃ (slot : BitVec 4) (level : Bit), slot.toNat = s.txSlot.toNat + 1 ∧
        (level = 1#1 ↔ s.txSlot < 8#4 ∧ s.txByte.getLsbD s.txSlot.toNat = false) ∧
        exec .txFrame s =
          .next { s with txSlot := slot, txOut := level, cnt := s.cfg.bitCycles - 1 })

/-- R115 (with R110): at a frame's end the next byte of the message is loaded at this same edge; after
the last one the banner returns to RX_IDLE and the reply begins the first short pulse. -/
def Obligations.FrameEndContinuesOrEndsTheMessage : Prop :=
  ∀ s : State, s.cnt = 0 → 10#4 ≤ s.txSlot →
    (s.msgIdx + 1 < msgLen s s.msgSel →
      ∃ b, msgByte s s.msgSel (s.msgIdx + 1) = some b ∧ exec .txFrame s =
        .next { s with msgIdx := s.msgIdx + 1, txByte := b, txSlot := 0#4, txOut := 1#1,
                       cnt := s.cfg.bitCycles - 1 }) ∧
    (msgLen s s.msgSel ≤ s.msgIdx + 1 → s.msgSel = .banner →
      exec .txFrame s = .next { s with phase := 1#4 }) ∧
    (msgLen s s.msgSel ≤ s.msgIdx + 1 → s.msgSel = .reply →
      exec .txFrame s =
        .next { s with statusOut := 0#1, cnt := s.cfg.shortCycles - 1, pulseN := 0#1, phase := 7#4 })

/-- R134: PULSE_SHORT_ON counts; at 0 the indicator goes off for an equal time. It is entered only at a
reply's end (first pulse) or from PULSE_SHORT_OFF (second pulse), with `cnt` and the indicator set. -/
def Obligations.PulseShortOnEndsInOff : Prop :=
  (∀ s : State,
    (s.cnt ≠ 0 → exec .pulseShortOn s = .next { s with cnt := s.cnt - 1 }) ∧
    (s.cnt = 0 → exec .pulseShortOn s =
      .next { s with statusOut := 1#1, cnt := s.cfg.shortCycles - 1, phase := 8#4 })) ∧
  ∀ (i : Instr) (s t : State), s.phase = encode i → exec i s = .next t →
    s.phase ≠ 7#4 → t.phase = 7#4 →
    t.statusOut = 0#1 ∧ t.cnt = s.cfg.shortCycles - 1 ∧
      ((i = .txFrame ∧ s.msgSel = .reply ∧ t.pulseN = 0#1) ∨
       (i = .pulseShortOff ∧ s.pulseN = 0#1 ∧ t.pulseN = 1#1))

/-- R135: PULSE_SHORT_OFF counts; at 0 the first pulse starts the second and the second returns to
RX_IDLE. -/
def Obligations.PulseShortOffRepeatsOnce : Prop :=
  ∀ s : State,
    (s.cnt ≠ 0 → exec .pulseShortOff s = .next { s with cnt := s.cnt - 1 }) ∧
    (s.cnt = 0 → s.pulseN = 0#1 → exec .pulseShortOff s =
      .next { s with pulseN := 1#1, statusOut := 0#1, cnt := s.cfg.shortCycles - 1, phase := 7#4 }) ∧
    (s.cnt = 0 → s.pulseN = 1#1 → exec .pulseShortOff s =
      .next { s with pulseN := 0#1, phase := 1#4 })

/-! ## Rules over all phases -/

/-- R29 and the "Fields written" of R90 to R92, R112, R115, R131 to R135: what each phase leaves
unchanged when it gives a next state. No phase writes anything but registers. -/
def Obligations.PhasesWriteOnlyTheirFields : Prop :=
  ∀ (i : Instr) (s t : State), exec i s = .next t →
    t.SameEnvironment s ∧
    (i ∈ [.rxIdle, .rxData, .rxStop] →
      t.txByte = s.txByte ∧ t.txSlot = s.txSlot ∧ t.msgSel = s.msgSel ∧ t.msgIdx = s.msgIdx ∧
        t.pulseN = s.pulseN ∧ t.txOut = s.txOut) ∧
    (i ∉ [.rxIdle, .rxData] → t.rxBit = s.rxBit ∧ t.rxShift = s.rxShift) ∧
    (i ≠ .rxStop → t.addr = s.addr) ∧
    (i ∈ [.start, .rxIdle, .rxData, .pulseLongOff] → t.statusOut = s.statusOut) ∧
    (i ∈ [.pulseLongOn, .pulseShortOn, .pulseShortOff] →
      t.txByte = s.txByte ∧ t.txSlot = s.txSlot ∧ t.msgSel = s.msgSel ∧ t.msgIdx = s.msgIdx ∧
        t.txOut = s.txOut) ∧
    (i ∉ [.txFrame, .pulseShortOff] → t.pulseN = s.pulseN) ∧
    (i = .txFrame → t.msgSel = s.msgSel)

/-- R98, R153: `rx_in` is read in RX_IDLE and, in RX_DATA, at the sampling edges alone; at every other
edge its level changes nothing but itself. -/
def Obligations.LineIsReadOnlyWhenWatched : Prop :=
  ∀ (i : Instr) (s t : State) (x : Bit), i ≠ .rxIdle → (i ≠ .rxData ∨ s.cnt ≠ 0) →
    exec i s = .next t → exec i { s with rxIn := x } = .next { t with rxIn := x }

/-- R99: only the delivery of RX_STOP writes `addr`, and it writes the assembled byte; a reply's bytes
therefore all echo one address (R43). -/
def Obligations.AddressIsWrittenByDeliveryAlone : Prop :=
  ∀ s t : State, s.Live → step s = .next t → t.addr ≠ s.addr →
    s.phase = 3#4 ∧ s.cnt = 0 ∧ t.phase = 4#4 ∧ t.addr = s.rxShift

/-- R25, R130, R138: at a live edge the phase holds or moves along the source's state machine. -/
def Obligations.PhasesFollowTheStateMachine : Prop :=
  ∀ s t : State, s.Live → step s = .next t → t.phase ≠ s.phase →
    (s.phase, t.phase) ∈
      [(0#4, 6#4), (6#4, 1#4), (1#4, 2#4), (2#4, 3#4), (3#4, 4#4), (4#4, 5#4), (5#4, 1#4),
       (5#4, 6#4), (6#4, 7#4), (7#4, 8#4), (8#4, 7#4), (8#4, 1#4)]

/-- R67, R133, R136: a transmission begins only as the banner, from START, or as a reply, from the end of
the long pulse of a byte equal to `NODE_ID`. -/
def Obligations.OnlyAMatchStartsAReply : Prop :=
  ∀ s t : State, s.Live → step s = .next t → s.phase ≠ 6#4 → t.phase = 6#4 →
    (s.phase = 0#4 ∧ t.msgSel = .banner) ∨
    (s.phase = 5#4 ∧ s.addr = s.cfg.nodeId ∧ t.msgSel = .reply)

/-- R26, R112, R115: where the invariant holds, in TX_FRAME the conditions `frame_end` and `msg_last` of
R26 are the tests the phase's rule makes (log entry 5). -/
def Obligations.ConditionsMatchTheRulesTests : Prop :=
  ∀ s : State, s.Inv → s.power = .up → s.phase = 6#4 →
    (frameEnd s = true ↔ ¬ s.txSlot < 10#4) ∧
    (msgLast s = true ↔ ¬ s.msgIdx + 1 < msgLen s s.msgSel)

/-- R32, R43, R117, R140: every step keeps the invariant of the states reached from `RESET_STATE`. -/
def Obligations.EveryStepKeepsTheInvariant : Prop :=
  ∀ s t : State, s.Inv → step s = .next t → t.Inv

/-- R32, R138, R152: from every state with a legal configuration that meets the invariant, whatever the
inputs are and before the first reset too, the step answers a next state, which meets the invariant
again: no fault and no refusal can be met on the way. -/
def Obligations.InvariantStatesStepToInvariantStates : Prop :=
  ∀ s : State, s.cfg.Legal → s.Inv → ∃ t, step s = .next t ∧ t.cfg.Legal ∧ t.Inv

/-- R32: the invariant holds at reset, under every legal configuration. -/
def Obligations.InvariantHoldsAtReset : Prop :=
  State.reset.Inv ∧ ∀ c : Config, c.Legal → (State.resetOf c).Inv

/-- R83, R6: where the invariant holds, `cnt` and `msg_idx` fit in registers of the configured widths, so
the natural numbers of the model never differ from them. -/
def Obligations.CountersFitTheirWidths : Prop :=
  ∀ s : State, s.cfg.Legal → s.power = .up → s.Inv →
    s.cnt < 2 ^ s.cfg.cntWidth ∧ s.msgIdx < 2 ^ s.cfg.idxWidth

/-- R138, R152, R183: from reset, under every legal configuration and whatever the inputs are, resets
among them, a run never stops: no fault and no refusal is reached at any edge. -/
def Obligations.RunsFromResetNeverStop : Prop :=
  ∀ (c : Config) (rx : Bit) (stim : List Input) (n : Nat), c.Legal →
    ∃ t, edges n { State.resetOf c with rxIn := rx, stim := stim } = .next t

/-- R117, R140, R43: after any number of edges from reset, whatever the inputs: outside TX_FRAME the line
is IDLE, the indicator is on exactly in the two on phases, and a reply is only ever sent for a byte
equal to `NODE_ID`. -/
def Obligations.OutputsFollowThePhaseInEveryRun : Prop :=
  ∀ (c : Config) (rx : Bit) (stim : List Input) (n : Nat) (t : State), c.Legal →
    edges n { State.resetOf c with rxIn := rx, stim := stim } = .next t →
    (t.phase ≠ 6#4 → t.txOut = 0#1) ∧ (t.statusOut = 0#1 ↔ t.phase = 4#4 ∨ t.phase = 7#4) ∧
    (t.phase = 6#4 → t.msgSel = .reply → t.addr = c.nodeId)

/-! ## Timing over several edges -/

/-- R81: a counting phase only decrements `cnt`, one edge at a time, so a delay of n edges ends after
exactly n: k edges later nothing but `cnt` has changed, and the inputs to come are k edges on. -/
def Obligations.DelaysCountExactly : Prop :=
  ∀ (s : State) (i : Instr) (k : Nat), s.phase = encode i → i ≠ .start → i ≠ .rxIdle → k ≤ s.cnt →
    s.LiveFor k →
    ∃ t, edges k s = .next t ∧ t.toRegs = { s.toRegs with cnt := s.cnt - k } ∧ t.cfg = s.cfg ∧
      t.power = .up ∧ ∀ j, inputAt t j = inputAt s (k + j)

/-- R97: while the line is IDLE the core stays in RX_IDLE and writes nothing, for any number of edges. -/
def Obligations.IdleLineIsWaitedOut : Prop :=
  ∀ (s : State) (n : Nat), s.phase = 1#4 → s.LiveFor n → (∀ j < n, (inputAt s j).rx = 0#1) →
    ∃ t, edges n s = .next t ∧ t.toRegs = s.toRegs ∧ t.cfg = s.cfg

/-- R93, R63: from the detection edge t0, data bit k is the complement of the level at edge
t0 + H + (k + 1) B and of no other; the byte is delivered at edge t0 + 10 B, and the long pulse begins. -/
def Obligations.ReceptionSamplesBitCentres : Prop :=
  ∀ s : State, s.phase = 1#4 → s.LiveFor (10 * s.cfg.bitCycles + 1) → (inputAt s 0).rx = 1#1 →
    ∃ t, edges (10 * s.cfg.bitCycles + 1) s = .next t ∧ t.LongPulseBegun ∧ t.cfg = s.cfg ∧
      t.txOut = s.txOut ∧
      ∀ k < 8, t.addr.getLsbD k =
        decide ((inputAt s (s.cfg.bitCycles / 2 + (k + 1) * s.cfg.bitCycles)).rx = 0#1)

/-- R95, R68: one ACTIVE sample on an otherwise IDLE line delivers 0xFF, and a line held ACTIVE delivers
0x00. -/
def Obligations.GlitchAndStuckLineBytes : Prop :=
  ∀ s : State, s.phase = 1#4 → s.LiveFor (10 * s.cfg.bitCycles + 1) → (inputAt s 0).rx = 1#1 →
    ((∀ j, 1 ≤ j → j ≤ 10 * s.cfg.bitCycles → (inputAt s j).rx = 0#1) →
      ∃ t, edges (10 * s.cfg.bitCycles + 1) s = .next t ∧ t.addr = 0xFF#8) ∧
    ((∀ j ≤ 10 * s.cfg.bitCycles, (inputAt s j).rx = 1#1) →
      ∃ t, edges (10 * s.cfg.bitCycles + 1) s = .next t ∧ t.addr = 0x00#8)

/-- R113, R60: slot j of a frame is on the line for exactly the B intervals from j B on, with the level of
R60, and the frame's end comes 11 B edges after `LoadFrame`: n edges after its first interval the slot
is n / B, and at the last of the 11 B intervals `cnt` has reached 0 in slot 10. -/
def Obligations.FrameOccupiesElevenBitPeriods : Prop :=
  ∀ (s : State) (n : Nat), s.FrameBegun → n < 11 * s.cfg.bitCycles → s.LiveFor n →
    ∃ t, edges n s = .next t ∧ t.phase = 6#4 ∧ t.txByte = s.txByte ∧ t.msgIdx = s.msgIdx ∧
      t.txSlot.toNat = n / s.cfg.bitCycles ∧
      t.txOut = slotLevel s.txByte (BitVec.ofNat 4 (n / s.cfg.bitCycles)) ∧
      (n = 11 * s.cfg.bitCycles - 1 → t.cnt = 0 ∧ t.txSlot = 10#4)

/-- R116: the frames of a message follow each other back to back, frame i beginning 11 B i edges after
the first; the message ends 11 B N edges after it began, the banner in RX_IDLE and the reply in the
first short pulse. -/
def Obligations.MessageFramesAreBackToBack : Prop :=
  ∀ (s : State) (i : Nat), s.MessageBegun → i ≤ msgLen s s.msgSel →
    s.LiveFor (11 * s.cfg.bitCycles * i) →
    ∃ t, edges (11 * s.cfg.bitCycles * i) s = .next t ∧ t.msgSel = s.msgSel ∧ t.addr = s.addr ∧
      t.cfg = s.cfg ∧
      (i < msgLen s s.msgSel →
        t.FrameBegun ∧ t.msgIdx = i ∧ msgByte s s.msgSel i = some t.txByte) ∧
      (i = msgLen s s.msgSel → s.msgSel = .banner → t.phase = 1#4 ∧ t.txOut = 0#1) ∧
      (i = msgLen s s.msgSel → s.msgSel = .reply → t.ShortPulsesBegun ∧ t.txOut = 0#1)

/-- R94: the round trip. A receiver in RX_IDLE that reads the line of a transmitter at the start of a
frame, with the same bit period, delivers the byte sent, for every byte and every legal bit period. -/
def Obligations.ReceiverReadsBackTheFrameSent : Prop :=
  ∀ tx rx : State, tx.FrameBegun → rx.phase = 1#4 → tx.cfg.bitCycles = rx.cfg.bitCycles →
    tx.LiveFor (11 * tx.cfg.bitCycles) → rx.LiveFor (10 * rx.cfg.bitCycles + 1) →
    (∀ j ≤ 10 * rx.cfg.bitCycles, txLine j tx = some (inputAt rx j).rx) →
    ∃ t, edges (10 * rx.cfg.bitCycles + 1) rx = .next t ∧ t.addr = tx.txByte

/-- R177 (with the bytes of vector L2-R4): a receiver that first polls d edges after a frame's start bit
began, within that bit, delivers the byte sent when d <= H - 1; with d >= H every sample reads the next
slot, so the byte is the one sent shifted down by a bit, with the stop bit's 1 on top. -/
def Obligations.LateDetectionIsHarmlessWithinAHalfBit : Prop :=
  ∀ (tx rx : State) (d : Nat), tx.FrameBegun → rx.phase = 1#4 →
    tx.cfg.bitCycles = rx.cfg.bitCycles → d < rx.cfg.bitCycles →
    tx.LiveFor (11 * tx.cfg.bitCycles) → rx.LiveFor (10 * rx.cfg.bitCycles + 1) →
    (∀ j ≤ 10 * rx.cfg.bitCycles, txLine (j + d) tx = some (inputAt rx j).rx) →
    ∃ t, edges (10 * rx.cfg.bitCycles + 1) rx = .next t ∧
      (d ≤ rx.cfg.bitCycles / 2 - 1 → t.addr = tx.txByte) ∧
      (rx.cfg.bitCycles / 2 ≤ d → t.addr = (tx.txByte >>> 1) ||| 0x80#8)

/-- R175: the banner occupies edges 0 to 11 B Nb, where edge 0 is the edge that runs START, whatever
`rx_in` and the registers are: the core is not in RX_IDLE at any edge up to 11 B Nb, it is at the edge
after, and the start bit is on the line from the first interval on. START is the phase after every
reset edge (R30). -/
def Obligations.StartupListensAfterTheBanner : Prop :=
  ∀ s : State, s.phase = 0#4 → s.LiveFor (11 * s.cfg.bitCycles * msgLen s .banner + 1) →
    (∃ t, edges (11 * s.cfg.bitCycles * msgLen s .banner + 1) s = .next t ∧ t.phase = 1#4) ∧
    (∀ n ≤ 11 * s.cfg.bitCycles * msgLen s .banner, ∃ t, edges n s = .next t ∧ t.phase ≠ 1#4) ∧
    ∃ t, edges 1 s = .next t ∧ t.MessageBegun ∧ t.msgSel = .banner

/-- R137, R141 for a mismatch: after the delivery the indicator is on for L intervals and off for L, the
line keeps its level, and RX_IDLE is entered 2 L edges after the delivery. -/
def Obligations.MismatchGivesOneLongPulse : Prop :=
  ∀ (s : State) (n : Nat), s.LongPulseBegun → s.addr ≠ s.cfg.nodeId → n ≤ 2 * s.cfg.longCycles →
    s.LiveFor n →
    ∃ t, edges n s = .next t ∧ t.txOut = s.txOut ∧
      t.statusOut = (if n < s.cfg.longCycles then 0#1 else 1#1) ∧
      (t.phase = 1#4 ↔ n = 2 * s.cfg.longCycles)

/-- R137 for a match: the same long pulse, and 2 L edges after the delivery the reply's first start bit is
on the line. -/
def Obligations.MatchStartsTheReplyAfterTheLongPulse : Prop :=
  ∀ (s : State) (n : Nat), s.LongPulseBegun → s.addr = s.cfg.nodeId → n ≤ 2 * s.cfg.longCycles →
    s.LiveFor n →
    ∃ t, edges n s = .next t ∧ t.statusOut = (if n < s.cfg.longCycles then 0#1 else 1#1) ∧
      (n < 2 * s.cfg.longCycles → t.txOut = s.txOut ∧ t.phase ≠ 1#4) ∧
      (n = 2 * s.cfg.longCycles → t.MessageBegun ∧ t.msgSel = .reply ∧ t.addr = s.addr)

/-- R135, R137: after a reply exactly two short pulses: the indicator is on, off, on, off for SH intervals
each, the line keeps its level, and RX_IDLE is entered 4 SH edges after the reply's end. -/
def Obligations.TwoShortPulsesFollowAReply : Prop :=
  ∀ (s : State) (n : Nat), s.ShortPulsesBegun → n ≤ 4 * s.cfg.shortCycles → s.LiveFor n →
    ∃ t, edges n s = .next t ∧ t.txOut = s.txOut ∧
      (t.statusOut = 0#1 ↔ n < 4 * s.cfg.shortCycles ∧ n / s.cfg.shortCycles % 2 = 0) ∧
      (t.phase = 1#4 ↔ n = 4 * s.cfg.shortCycles)

/-- R137, R176: the whole dispatch cycle. With t0 the detection edge, the core is blind at every edge up
to t0 + 10 B + 2 L after a byte that is not `NODE_ID`, and up to t0 + 10 B + 2 L + 11 B Nr + 4 SH after
one that is; it polls again at the edge after. -/
def Obligations.BlindWindowOfADispatchCycle : Prop :=
  ∀ (s : State) (w : Nat) (isMatch : Bool), s.phase = 1#4 → (inputAt s 0).rx = 1#1 →
    (isMatch = true ↔ ∀ k < 8, s.cfg.nodeId.getLsbD k =
      decide ((inputAt s (s.cfg.bitCycles / 2 + (k + 1) * s.cfg.bitCycles)).rx = 0#1)) →
    w = 10 * s.cfg.bitCycles + 2 * s.cfg.longCycles +
      (if isMatch then 11 * s.cfg.bitCycles * msgLen s .reply + 4 * s.cfg.shortCycles else 0) →
    s.LiveFor (w + 1) →
    (∃ t, edges (w + 1) s = .next t ∧ t.phase = 1#4) ∧
    ∀ n, 1 ≤ n → n ≤ w → ∃ t, edges n s = .next t ∧ t.phase ≠ 1#4

/-! ## The bus -/

/-- From R157 and R158: what a node sees on its receive line. Under SPLIT it is what the requester
drives, whatever the nodes do. Under SHARED one driver alone, requester or node, sets the level, and two
or more drivers, the node itself among them, leave it free (the draw's form: log entry 14). That a node
drives exactly in TX_FRAME, that an undriven line is IDLE under both topologies, and that a lone driver
sees its own level are the model's reading (DEDUCED, log entry 6). -/
def Obligations.BusLevelByDrivers : Prop :=
  ∀ (b : Bus) (req : Drive) (k : Nat),
    (b.topology = .split → b.rxLevel req k = if req.driving then req.level else 0#1) ∧
    (b.topology = .shared →
      ((req.driving = false ∧ ∀ s ∈ b.nodes, s.phase ≠ 6#4) → b.rxLevel req k = 0#1) ∧
      ((req.driving = true ∧ ∀ s ∈ b.nodes, s.phase ≠ 6#4) → b.rxLevel req k = req.level) ∧
      (∀ s pre post, req.driving = false → b.nodes = pre ++ s :: post → s.phase = 6#4 →
        (∀ u ∈ pre ++ post, u.phase ≠ 6#4) → b.rxLevel req k = s.txOut) ∧
      (2 ≤ (b.nodes.countP fun s => s.phase = 6#4) + (if req.driving then 1 else 0) →
        b.rxLevel req k = Config.freeContention b.edge k))

/-- R157: on a bus each node takes its own step, on the level of its own receive line and its own `rst`,
with no other signal between nodes; and it keeps the place that numbers its free draws apart from the
other nodes' (log entry 14). It says so of a bus edge that completes; what a bus does where a node stops
is log entry 16. -/
def Obligations.BusNodesStepIndependently : Prop :=
  ∀ (b b' : Bus) (req : Drive), b.step req = .next b' →
    b'.topology = b.topology ∧ b'.nodes.length = b.nodes.length ∧
    ∀ (k : Nat) (s : State), b.nodes[k]? = some s →
      ∃ t, step { s with rxIn := b.rxLevel req k, place := k } = .next t ∧ b'.nodes[k]? = some t ∧
        t.place = k

/-- From R157, with the invariant of R32: a bus whose every node has a legal configuration and meets the
invariant takes its edge, whatever the topology, the requester and the inputs are, and every node meets
the invariant again. -/
def Obligations.BusOfInvariantNodesCompletesItsEdge : Prop :=
  ∀ (b : Bus) (req : Drive), (∀ s ∈ b.nodes, s.cfg.Legal ∧ s.Inv) →
    ∃ b', b.step req = .next b' ∧ ∀ t ∈ b'.nodes, t.cfg.Legal ∧ t.Inv
end

