-- ==== Sys2Proof/Laws/Operands.lean ====
section
/-! SUPPORT. Bits, levels, messages and legal configurations: one spec lemma per function of
Machine/Operands.lean, and what `Config.Legal` gives. -/

namespace Sys2Proof.Laws

open Sys2Proof.Machine

/-- A level is ACTIVE or IDLE. -/
theorem bit_cases (x : Bit) : x = 0#1 ∨ x = 1#1 := by
  revert x; decide

theorem bit_ne_one_iff (x : Bit) : x ≠ 1#1 ↔ x = 0#1 := by
  revert x; decide

/-- The two mappings of R62 are inverse. -/
@[simp] theorem bitOfLevel_levelOfBit (v : Bit) : bitOfLevel (levelOfBit v) = v := by
  revert v; decide

@[simp] theorem levelOfBit_bitOfLevel (x : Bit) : levelOfBit (bitOfLevel x) = x := by
  revert x; decide

theorem bitAt_eq_ofBool (b : Byte) (k : Nat) : bitAt b k = BitVec.ofBool (b.getLsbD k) := by
  apply BitVec.eq_of_getLsbD_eq
  intro i hi
  have : i = 0 := by omega
  subst this
  simp [bitAt]

/-- A byte is its eight bits. -/
theorem byte_ext {a b : Byte} (h : ∀ k < 8, bitAt a k = bitAt b k) : a = b := by
  apply BitVec.eq_of_getLsbD_eq
  intro k hk
  have := h k hk
  rw [bitAt_eq_ofBool, bitAt_eq_ofBool] at this
  cases ha : a.getLsbD k <;> cases hb : b.getLsbD k <;> simp_all

theorem getLsbD_setBit (b : Byte) (k : BitVec 3) (v : Bit) (j : Nat) (hj : j < 8) :
    (setBit b k v).getLsbD j = if j = k.toNat then v.getLsbD 0 else b.getLsbD j := by
  rcases Nat.lt_trichotomy j k.toNat with h | h | h
  · simp [setBit, h, hj, Nat.ne_of_lt h]
  · subst h; simp [setBit, hj]
  · have h0 : j - k.toNat ≠ 0 := by omega
    have hv : v.getLsbD (j - k.toNat) = false := BitVec.getLsbD_of_ge _ _ (by omega)
    simp [setBit, hj, Nat.ne_of_gt h, h0, hv]

/-- Writing bit k sets that bit and no other (R10, R91). -/
theorem bitAt_setBit (b : Byte) (k : BitVec 3) (v : Bit) (j : Nat) (hj : j < 8) :
    bitAt (setBit b k v) j = if j = k.toNat then v else bitAt b j := by
  rw [bitAt_eq_ofBool, bitAt_eq_ofBool, getLsbD_setBit b k v j hj]
  split
  · rcases bit_cases v with rfl | rfl <;> rfl
  · rfl

/-- The start slot is ACTIVE (R60). -/
@[simp] theorem slotLevel_start (b : Byte) : slotLevel b 0#4 = 1#1 := rfl

/-- Data slot k + 1 carries bit k, ACTIVE for 0 (R60, R62). -/
theorem slotLevel_data (b : Byte) (k : Nat) (hk : k < 8) :
    slotLevel b (BitVec.ofNat 4 (k + 1)) = levelOfBit (bitAt b k) := by
  have h : k = 0 ∨ k = 1 ∨ k = 2 ∨ k = 3 ∨ k = 4 ∨ k = 5 ∨ k = 6 ∨ k = 7 := by omega
  rcases h with rfl | rfl | rfl | rfl | rfl | rfl | rfl | rfl <;> rfl

/-- The stop bit and the gap are IDLE (R60). -/
theorem slotLevel_idle (b : Byte) (slot : BitVec 4) (h : 9#4 ≤ slot) : slotLevel b slot = 0#1 := by
  have h1 : slot ≠ 0#4 := by rintro rfl; exact absurd h (by decide)
  have h2 : ¬ slot ≤ 8#4 := by rw [BitVec.le_def] at *; simp at *; omega
  simp [slotLevel, h1, h2]

/-- `MsgLen` by R41's formulas: it depends on the configuration alone, not on `addr` (R69). -/
theorem msgLen_eq (s : State) (sel : MsgSel) : msgLen s sel = s.cfg.messageBytes sel := by
  cases sel <;> cases h : s.cfg.sendSentinel <;>
    simp [msgLen, msgSeq, sentinel, Config.messageBytes, h]

/-- `MsgByte` answers exactly inside the message (R42). -/
theorem msgByte_isSome_iff (s : State) (sel : MsgSel) (i : Nat) :
    (msgByte s sel i).isSome ↔ i < msgLen s sel := by
  simp [msgByte, msgLen]

theorem msgByte_eq_some {s : State} {sel : MsgSel} {i : Nat} (h : i < msgLen s sel) :
    ∃ b, msgByte s sel i = some b :=
  Option.isSome_iff_exists.mp ((msgByte_isSome_iff s sel i).mpr h)

/-- A reply has at least its address byte and its line feed (R41). -/
theorem reply_length (s : State) : 2 ≤ msgLen s .reply := by
  rw [msgLen_eq]; simp [Config.messageBytes]; omega

/-- What a legal configuration satisfies (R6, R7). -/
theorem legal_iff (c : Config) : c.Legal ↔
    c.bitCycles % 2 = 0 ∧ 2 ≤ c.bitCycles ∧ 1 ≤ c.shortCycles ∧ c.shortCycles < c.longCycles ∧
    c.banner ≠ [] ∧ 0#8 ∉ c.banner ∧ 0#8 ∉ c.replyPrefix ∧ c.maxCount < 2 ^ c.cntWidth ∧
    c.maxIndex < 2 ^ c.idxWidth := by
  unfold Config.Legal Config.flaw
  constructor
  · intro h
    repeat' split at h
    all_goals first | contradiction | (refine ⟨?_, ?_, ?_, ?_, ?_, ?_, ?_, ?_, ?_⟩ <;> omega)
  · rintro ⟨h1, h2, h3, h4, h5, h6, h7, h8, h9⟩
    rw [if_neg (by omega), if_neg (by omega), if_neg (by omega), if_neg (by omega),
      if_neg (by omega), if_neg h5, if_neg h6, if_neg h7, if_neg (by omega), if_neg (by omega)]

/-- A legal banner is never empty (R41). -/
theorem banner_length {s : State} (h : s.cfg.Legal) : 1 ≤ msgLen s .banner := by
  have hb := ((legal_iff _).mp h).2.2.2.2.1
  have := List.length_pos_iff.mpr hb
  rw [msgLen_eq]; simp only [Config.messageBytes]; omega

/-- Two halves make a bit period (R80). -/
theorem two_half {c : Config} (h : c.Legal) : 2 * halfCycles c = c.bitCycles := by
  have := ((legal_iff c).mp h).1
  unfold halfCycles; omega

end Sys2Proof.Laws
end

