-- ==== Sys2Proof/Laws/State.lean ====
section
/-! SUPPORT. What each named operation does to each part of the state: the register tuple of R23, and
the model's own fields. They hold by definition; later proofs cite them and unfold no update. -/

namespace Sys2Proof.Laws

open Sys2Proof.Machine

@[simp] theorem goto_toRegs (i : Instr) (s : State) :
    (goto i s).toRegs = { s.toRegs with phase := encode i } := rfl
@[simp] theorem goto_cfg (i : Instr) (s : State) : (goto i s).cfg = s.cfg := rfl
@[simp] theorem goto_power (i : Instr) (s : State) : (goto i s).power = s.power := rfl
@[simp] theorem goto_rst (i : Instr) (s : State) : (goto i s).rst = s.rst := rfl
@[simp] theorem goto_rxIn (i : Instr) (s : State) : (goto i s).rxIn = s.rxIn := rfl
@[simp] theorem goto_stim (i : Instr) (s : State) : (goto i s).stim = s.stim := rfl
@[simp] theorem goto_edge (i : Instr) (s : State) : (goto i s).edge = s.edge := rfl
@[simp] theorem goto_place (i : Instr) (s : State) : (goto i s).place = s.place := rfl

@[simp] theorem startDelay_toRegs (n : Nat) (s : State) :
    (startDelay n s).toRegs = { s.toRegs with cnt := n - 1 } := rfl
@[simp] theorem startDelay_cfg (n : Nat) (s : State) : (startDelay n s).cfg = s.cfg := rfl
@[simp] theorem startDelay_power (n : Nat) (s : State) : (startDelay n s).power = s.power := rfl
@[simp] theorem startDelay_rst (n : Nat) (s : State) : (startDelay n s).rst = s.rst := rfl
@[simp] theorem startDelay_rxIn (n : Nat) (s : State) : (startDelay n s).rxIn = s.rxIn := rfl
@[simp] theorem startDelay_stim (n : Nat) (s : State) : (startDelay n s).stim = s.stim := rfl
@[simp] theorem startDelay_edge (n : Nat) (s : State) : (startDelay n s).edge = s.edge := rfl
@[simp] theorem startDelay_place (n : Nat) (s : State) : (startDelay n s).place = s.place := rfl

@[simp] theorem setStatus_toRegs (v : Bit) (s : State) :
    (setStatus v s).toRegs = { s.toRegs with statusOut := v } := rfl
@[simp] theorem setStatus_cfg (v : Bit) (s : State) : (setStatus v s).cfg = s.cfg := rfl
@[simp] theorem setStatus_power (v : Bit) (s : State) : (setStatus v s).power = s.power := rfl
@[simp] theorem setStatus_rst (v : Bit) (s : State) : (setStatus v s).rst = s.rst := rfl
@[simp] theorem setStatus_rxIn (v : Bit) (s : State) : (setStatus v s).rxIn = s.rxIn := rfl
@[simp] theorem setStatus_stim (v : Bit) (s : State) : (setStatus v s).stim = s.stim := rfl
@[simp] theorem setStatus_edge (v : Bit) (s : State) : (setStatus v s).edge = s.edge := rfl
@[simp] theorem setStatus_place (v : Bit) (s : State) : (setStatus v s).place = s.place := rfl

@[simp] theorem takeSample_toRegs (s : State) :
    (takeSample s).toRegs = { s.toRegs with rxShift := setBit s.rxShift s.rxBit (bitOfLevel s.rxIn) } := rfl
@[simp] theorem takeSample_cfg (s : State) : (takeSample s).cfg = s.cfg := rfl
@[simp] theorem takeSample_power (s : State) : (takeSample s).power = s.power := rfl
@[simp] theorem takeSample_rst (s : State) : (takeSample s).rst = s.rst := rfl
@[simp] theorem takeSample_rxIn (s : State) : (takeSample s).rxIn = s.rxIn := rfl
@[simp] theorem takeSample_stim (s : State) : (takeSample s).stim = s.stim := rfl
@[simp] theorem takeSample_edge (s : State) : (takeSample s).edge = s.edge := rfl
@[simp] theorem takeSample_place (s : State) : (takeSample s).place = s.place := rfl

@[simp] theorem loadFrame_toRegs (b : Byte) (s : State) :
    (loadFrame b s).toRegs = { s.toRegs with txByte := b, txSlot := 0#4, txOut := 1#1, cnt := s.cfg.bitCycles - 1 } := rfl
@[simp] theorem loadFrame_cfg (b : Byte) (s : State) : (loadFrame b s).cfg = s.cfg := rfl
@[simp] theorem loadFrame_power (b : Byte) (s : State) : (loadFrame b s).power = s.power := rfl
@[simp] theorem loadFrame_rst (b : Byte) (s : State) : (loadFrame b s).rst = s.rst := rfl
@[simp] theorem loadFrame_rxIn (b : Byte) (s : State) : (loadFrame b s).rxIn = s.rxIn := rfl
@[simp] theorem loadFrame_stim (b : Byte) (s : State) : (loadFrame b s).stim = s.stim := rfl
@[simp] theorem loadFrame_edge (b : Byte) (s : State) : (loadFrame b s).edge = s.edge := rfl
@[simp] theorem loadFrame_place (b : Byte) (s : State) : (loadFrame b s).place = s.place := rfl

@[simp] theorem nextSlot_toRegs (s : State) :
    (nextSlot s).toRegs = { s.toRegs with txSlot := s.txSlot + 1#4, txOut := slotLevel s.txByte (s.txSlot + 1#4), cnt := s.cfg.bitCycles - 1 } := rfl
@[simp] theorem nextSlot_cfg (s : State) : (nextSlot s).cfg = s.cfg := rfl
@[simp] theorem nextSlot_power (s : State) : (nextSlot s).power = s.power := rfl
@[simp] theorem nextSlot_rst (s : State) : (nextSlot s).rst = s.rst := rfl
@[simp] theorem nextSlot_rxIn (s : State) : (nextSlot s).rxIn = s.rxIn := rfl
@[simp] theorem nextSlot_stim (s : State) : (nextSlot s).stim = s.stim := rfl
@[simp] theorem nextSlot_edge (s : State) : (nextSlot s).edge = s.edge := rfl
@[simp] theorem nextSlot_place (s : State) : (nextSlot s).place = s.place := rfl

@[simp] theorem pulseOff_toRegs (n : Nat) (i : Instr) (s : State) :
    (pulseOff n i s).toRegs = { s.toRegs with phase := encode i, statusOut := 1#1, cnt := n - 1 } := rfl
@[simp] theorem pulseOff_cfg (n : Nat) (i : Instr) (s : State) : (pulseOff n i s).cfg = s.cfg := rfl
@[simp] theorem pulseOff_power (n : Nat) (i : Instr) (s : State) : (pulseOff n i s).power = s.power := rfl
@[simp] theorem pulseOff_rst (n : Nat) (i : Instr) (s : State) : (pulseOff n i s).rst = s.rst := rfl
@[simp] theorem pulseOff_rxIn (n : Nat) (i : Instr) (s : State) : (pulseOff n i s).rxIn = s.rxIn := rfl
@[simp] theorem pulseOff_stim (n : Nat) (i : Instr) (s : State) : (pulseOff n i s).stim = s.stim := rfl
@[simp] theorem pulseOff_edge (n : Nat) (i : Instr) (s : State) : (pulseOff n i s).edge = s.edge := rfl
@[simp] theorem pulseOff_place (n : Nat) (i : Instr) (s : State) : (pulseOff n i s).place = s.place := rfl

@[simp] theorem applyReset_toRegs (s : State) :
    (applyReset s).toRegs = Regs.reset := rfl
@[simp] theorem applyReset_cfg (s : State) : (applyReset s).cfg = s.cfg := rfl
@[simp] theorem applyReset_power (s : State) : (applyReset s).power = .up := rfl
@[simp] theorem applyReset_rst (s : State) : (applyReset s).rst = s.rst := rfl
@[simp] theorem applyReset_rxIn (s : State) : (applyReset s).rxIn = s.rxIn := rfl
@[simp] theorem applyReset_stim (s : State) : (applyReset s).stim = s.stim := rfl
@[simp] theorem applyReset_edge (s : State) : (applyReset s).edge = s.edge := rfl
@[simp] theorem applyReset_place (s : State) : (applyReset s).place = s.place := rfl

@[simp] theorem powerUpEdge_toRegs (s : State) :
    (powerUpEdge s).toRegs = Regs.powerUp s.place s.edge := rfl
@[simp] theorem powerUpEdge_cfg (s : State) : (powerUpEdge s).cfg = s.cfg := rfl
@[simp] theorem powerUpEdge_power (s : State) : (powerUpEdge s).power = s.power := rfl
@[simp] theorem powerUpEdge_rst (s : State) : (powerUpEdge s).rst = s.rst := rfl
@[simp] theorem powerUpEdge_rxIn (s : State) : (powerUpEdge s).rxIn = s.rxIn := rfl
@[simp] theorem powerUpEdge_stim (s : State) : (powerUpEdge s).stim = s.stim := rfl
@[simp] theorem powerUpEdge_edge (s : State) : (powerUpEdge s).edge = s.edge := rfl
@[simp] theorem powerUpEdge_place (s : State) : (powerUpEdge s).place = s.place := rfl

@[simp] theorem nextEdge_toRegs (s : State) :
    (nextEdge s).toRegs = s.toRegs := rfl
@[simp] theorem nextEdge_cfg (s : State) : (nextEdge s).cfg = s.cfg := rfl
@[simp] theorem nextEdge_power (s : State) : (nextEdge s).power = s.power := rfl
@[simp] theorem nextEdge_rst (s : State) : (nextEdge s).rst = (nextInput s).rst := rfl
@[simp] theorem nextEdge_rxIn (s : State) : (nextEdge s).rxIn = (nextInput s).rx := rfl
@[simp] theorem nextEdge_stim (s : State) : (nextEdge s).stim = s.stim.tail := rfl
@[simp] theorem nextEdge_edge (s : State) : (nextEdge s).edge = s.edge + 1 := rfl
@[simp] theorem nextEdge_place (s : State) : (nextEdge s).place = s.place := rfl

/-- Two states are equal when their registers and the model's own fields are. -/
theorem state_ext {s t : State} (hr : s.toRegs = t.toRegs) (hc : s.cfg = t.cfg)
    (hp : s.power = t.power) (h1 : s.rst = t.rst) (h2 : s.rxIn = t.rxIn) (h3 : s.stim = t.stim)
    (h4 : s.edge = t.edge) (h5 : s.place = t.place) : s = t := by
  cases s; cases t; simp_all

end Sys2Proof.Laws
end

