-- ==== Sys2Proof/Laws/Ops.lean ====
section
/-! SUPPORT. What the shared operations of Machine/Ops.lean can answer. -/

namespace Sys2Proof.Laws

open Sys2Proof.Machine

/-- `CountStep` while counting (R81). -/
theorem countStep_counting {s : State} (done : Result) (h : s.cnt ≠ 0) :
    countStep s done = .next { s with cnt := s.cnt - 1 } := by
  simp [countStep, cntZero, h]

/-- `CountStep` at 0: the completion action (R81). -/
theorem countStep_done {s : State} (done : Result) (h : s.cnt = 0) : countStep s done = done := by
  simp [countStep, cntZero, h]

/-- The two cases of `CountStep` (R81). -/
theorem countStep_cases {s t : State} {done : Result} (h : countStep s done = .next t) :
    (s.cnt ≠ 0 ∧ t = { s with cnt := s.cnt - 1 }) ∨ (s.cnt = 0 ∧ done = .next t) := by
  by_cases hc : s.cnt = 0
  · exact .inr ⟨hc, by rwa [countStep_done _ hc] at h⟩
  · rw [countStep_counting _ hc] at h
    injection h with h
    exact .inl ⟨hc, h.symm⟩

/-- Loading a byte inside the message (R110, R111, R115). -/
theorem loadMsgByte_some {s : State} {sel : MsgSel} {i : Nat} {b : Byte}
    (h : msgByte s sel i = some b) :
    loadMsgByte sel i s = .next (loadFrame b { s with msgSel := sel, msgIdx := i }) := by
  simp [loadMsgByte, h]

/-- Loading a byte answers a next state only inside the message. -/
theorem loadMsgByte_cases {s t : State} {sel : MsgSel} {i : Nat}
    (h : loadMsgByte sel i s = .next t) :
    ∃ b, msgByte s sel i = some b ∧ t = loadFrame b { s with msgSel := sel, msgIdx := i } := by
  unfold loadMsgByte at h
  split at h
  · rename_i b hb
    injection h with h
    exact ⟨b, hb, h.symm⟩
  · cases h

/-- Starting a message answers a next state only if it has a first byte (R111). -/
theorem startMessage_cases {s t : State} {sel : MsgSel} (h : startMessage sel s = .next t) :
    ∃ b, msgByte s sel 0 = some b ∧
      t = loadFrame b { goto .txFrame s with msgSel := sel, msgIdx := 0 } :=
  loadMsgByte_cases h

/-- A finished edge is a next state exactly where the meaning gave one. -/
theorem finishEdge_next {r : Result} {t : State} (h : finishEdge r = .next t) :
    ∃ u, r = .next u ∧ t = nextEdge u := by
  cases r with
  | next u => injection h with h; exact ⟨u, rfl, h.symm⟩
  | fault e => cases h
  | refused e => cases h

/-- After an edge, the j-th input still to come is what the (j+1)-th was before (R8). -/
theorem inputAt_nextEdge (s : State) (j : Nat) : inputAt (nextEdge s) j = inputAt s (j + 1) := by
  cases j with
  | zero => cases h : s.stim <;> simp [inputAt, nextEdge, nextInput, h]
  | succ j => cases h : s.stim <;> simp [inputAt, nextEdge, h, Nat.add_assoc, Nat.add_comm 1]

/-- The inputs to come depend on the ports, the script, the draw number and the node's place alone. -/
theorem inputAt_congr {s t : State} (h1 : t.rst = s.rst) (h2 : t.rxIn = s.rxIn)
    (h3 : t.stim = s.stim) (h4 : t.edge = s.edge) (h5 : t.place = s.place) (j : Nat) :
    inputAt t j = inputAt s j := by
  cases j <;> simp [inputAt, h1, h2, h3, h4, h5]

theorem nextInput_congr {s t : State} (h3 : t.stim = s.stim) (h4 : t.edge = s.edge)
    (h5 : t.place = s.place) : nextInput t = nextInput s := by
  simp [nextInput, h3, h4, h5]

end Sys2Proof.Laws
end

