-- ==== Sys2Proof/Laws/Meanings.lean ====
section
/-! SUPPORT. Everything each meaning can do: one inversion lemma a phase. -/

namespace Sys2Proof.Laws

open Sys2Proof.Machine

/-- START (R131). -/
theorem execStart_cases {s t : State} (h : execStart s = .next t) :
    ∃ b, msgByte s .banner 0 = some b ∧
      t = loadFrame b { goto .txFrame s with msgSel := .banner, msgIdx := 0 } :=
  startMessage_cases h

/-- RX_IDLE (R90): a detection, or nothing written. -/
theorem execRxIdle_cases {s t : State} (h : execRxIdle s = .next t) :
    (s.rxIn = 1#1 ∧ t = startDelay (halfCycles s.cfg + s.cfg.bitCycles)
      (goto .rxData { s with rxShift := 0x00#8, rxBit := 0#3 })) ∨ (s.rxIn = 0#1 ∧ t = s) := by
  unfold execRxIdle at h
  split at h <;> injection h with h
  · rename_i hr; exact .inl ⟨hr, h.symm⟩
  · rename_i hr; exact .inr ⟨(bit_ne_one_iff _).mp hr, h.symm⟩

/-- RX_DATA (R91): counting, the last sample, or an earlier one. -/
theorem execRxData_cases {s t : State} (h : execRxData s = .next t) :
    (s.cnt ≠ 0 ∧ t = { s with cnt := s.cnt - 1 }) ∨
    (s.cnt = 0 ∧ s.rxBit = 7#3 ∧
      t = startDelay (s.cfg.bitCycles + halfCycles s.cfg) (goto .rxStop (takeSample s))) ∨
    (s.cnt = 0 ∧ s.rxBit ≠ 7#3 ∧
      t = startDelay s.cfg.bitCycles { takeSample s with rxBit := s.rxBit + 1#3 }) := by
  rcases countStep_cases h with hc | ⟨h0, hd⟩
  · exact .inl hc
  · split at hd <;> injection hd with hd
    · rename_i hb; exact .inr (.inl ⟨h0, by simpa [rxLast] using hb, hd.symm⟩)
    · rename_i hb; exact .inr (.inr ⟨h0, by simpa [rxLast] using hb, hd.symm⟩)

/-- RX_STOP (R92): counting, or the delivery. -/
theorem execRxStop_cases {s t : State} (h : execRxStop s = .next t) :
    (s.cnt ≠ 0 ∧ t = { s with cnt := s.cnt - 1 }) ∨
    (s.cnt = 0 ∧ t = startDelay s.cfg.longCycles
      (setStatus 0#1 (goto .pulseLongOn { s with addr := s.rxShift }))) := by
  rcases countStep_cases h with hc | ⟨h0, hd⟩
  · exact .inl hc
  · injection hd with hd; exact .inr ⟨h0, hd.symm⟩

/-- PULSE_LONG_ON (R132). -/
theorem execPulseLongOn_cases {s t : State} (h : execPulseLongOn s = .next t) :
    (s.cnt ≠ 0 ∧ t = { s with cnt := s.cnt - 1 }) ∨
    (s.cnt = 0 ∧ t = pulseOff s.cfg.longCycles .pulseLongOff s) := by
  rcases countStep_cases h with hc | ⟨h0, hd⟩
  · exact .inl hc
  · injection hd with hd; exact .inr ⟨h0, hd.symm⟩

/-- PULSE_LONG_OFF (R133): counting, a match, or a mismatch. -/
theorem execPulseLongOff_cases {s t : State} (h : execPulseLongOff s = .next t) :
    (s.cnt ≠ 0 ∧ t = { s with cnt := s.cnt - 1 }) ∨
    (s.cnt = 0 ∧ s.addr = s.cfg.nodeId ∧ ∃ b, msgByte s .reply 0 = some b ∧
      t = loadFrame b { goto .txFrame s with msgSel := .reply, msgIdx := 0 }) ∨
    (s.cnt = 0 ∧ s.addr ≠ s.cfg.nodeId ∧ t = goto .rxIdle s) := by
  rcases countStep_cases h with hc | ⟨h0, hd⟩
  · exact .inl hc
  · split at hd
    · rename_i hm
      exact .inr (.inl ⟨h0, by simpa [addrMatch] using hm, startMessage_cases hd⟩)
    · rename_i hm
      injection hd with hd
      exact .inr (.inr ⟨h0, by simpa [addrMatch] using hm, hd.symm⟩)

/-- `FrameEnd` (R115): the next byte, the banner's end, or the reply's end. -/
theorem endFrame_cases {s t : State} (h : endFrame s = .next t) :
    (s.msgIdx + 1 < msgLen s s.msgSel ∧ ∃ b, msgByte s s.msgSel (s.msgIdx + 1) = some b ∧
      t = loadFrame b { s with msgIdx := s.msgIdx + 1 }) ∨
    (¬ s.msgIdx + 1 < msgLen s s.msgSel ∧ s.msgSel = .banner ∧ t = goto .rxIdle s) ∨
    (¬ s.msgIdx + 1 < msgLen s s.msgSel ∧ s.msgSel = .reply ∧
      t = startDelay s.cfg.shortCycles
        (setStatus 0#1 (goto .pulseShortOn { s with pulseN := 0#1 }))) := by
  unfold endFrame at h
  split at h
  · rename_i hl; exact .inl ⟨hl, loadMsgByte_cases h⟩
  · rename_i hl
    split at h <;> injection h with h
    · rename_i hs; exact .inr (.inl ⟨hl, hs, h.symm⟩)
    · rename_i hs; exact .inr (.inr ⟨hl, hs, h.symm⟩)

/-- TX_FRAME (R112, R115): holding a slot, the next slot, or the frame's end. -/
theorem execTxFrame_cases {s t : State} (h : execTxFrame s = .next t) :
    (s.cnt ≠ 0 ∧ t = { s with cnt := s.cnt - 1 }) ∨
    (s.cnt = 0 ∧ s.txSlot < 10#4 ∧ t = nextSlot s) ∨
    (s.cnt = 0 ∧ ¬ s.txSlot < 10#4 ∧ endFrame s = .next t) := by
  rcases countStep_cases h with hc | ⟨h0, hd⟩
  · exact .inl hc
  · split at hd
    · rename_i hs; injection hd with hd; exact .inr (.inl ⟨h0, hs, hd.symm⟩)
    · rename_i hs; exact .inr (.inr ⟨h0, hs, hd⟩)

/-- PULSE_SHORT_ON (R134). -/
theorem execPulseShortOn_cases {s t : State} (h : execPulseShortOn s = .next t) :
    (s.cnt ≠ 0 ∧ t = { s with cnt := s.cnt - 1 }) ∨
    (s.cnt = 0 ∧ t = pulseOff s.cfg.shortCycles .pulseShortOff s) := by
  rcases countStep_cases h with hc | ⟨h0, hd⟩
  · exact .inl hc
  · injection hd with hd; exact .inr ⟨h0, hd.symm⟩

/-- PULSE_SHORT_OFF (R135): counting, the second pulse's end, or the second pulse's start. -/
theorem execPulseShortOff_cases {s t : State} (h : execPulseShortOff s = .next t) :
    (s.cnt ≠ 0 ∧ t = { s with cnt := s.cnt - 1 }) ∨
    (s.cnt = 0 ∧ s.pulseN = 1#1 ∧ t = goto .rxIdle { s with pulseN := 0#1 }) ∨
    (s.cnt = 0 ∧ s.pulseN = 0#1 ∧
      t = startDelay s.cfg.shortCycles
        (setStatus 0#1 (goto .pulseShortOn { s with pulseN := 1#1 }))) := by
  rcases countStep_cases h with hc | ⟨h0, hd⟩
  · exact .inl hc
  · split at hd <;> injection hd with hd
    · rename_i hp; exact .inr (.inl ⟨h0, by simpa [secondPulse] using hp, hd.symm⟩)
    · rename_i hp
      refine .inr (.inr ⟨h0, (bit_ne_one_iff _).mp ?_, hd.symm⟩)
      simpa [secondPulse] using hp

/-- The counting arm that all timed phases share (R81). -/
theorem exec_counting {i : Instr} {s : State} (h1 : i ≠ .start) (h2 : i ≠ .rxIdle) (h : s.cnt ≠ 0) :
    exec i s = .next { s with cnt := s.cnt - 1 } := by
  cases i with
  | start => exact absurd rfl h1
  | rxIdle => exact absurd rfl h2
  | rxData => exact countStep_counting _ h
  | rxStop => exact countStep_counting _ h
  | pulseLongOn => exact countStep_counting _ h
  | pulseLongOff => exact countStep_counting _ h
  | txFrame => exact countStep_counting _ h
  | pulseShortOn => exact countStep_counting _ h
  | pulseShortOff => exact countStep_counting _ h

/-- No meaning writes the build's parameters, the power-up mark, the input ports, the script, the
draw number or the node's place: a phase rule writes registers of R23 alone (R29, R33). -/
theorem exec_keeps_environment {i : Instr} {s t : State} (h : exec i s = .next t) :
    t.cfg = s.cfg ∧ t.power = s.power ∧ t.rst = s.rst ∧ t.rxIn = s.rxIn ∧ t.stim = s.stim ∧
      t.edge = s.edge ∧ t.place = s.place := by
  cases i with
  | start => obtain ⟨b, _, rfl⟩ := execStart_cases h; simp
  | rxIdle => rcases execRxIdle_cases h with ⟨_, rfl⟩ | ⟨_, rfl⟩ <;> simp
  | rxData => rcases execRxData_cases h with ⟨_, rfl⟩ | ⟨_, _, rfl⟩ | ⟨_, _, rfl⟩ <;> simp
  | rxStop => rcases execRxStop_cases h with ⟨_, rfl⟩ | ⟨_, rfl⟩ <;> simp
  | pulseLongOn => rcases execPulseLongOn_cases h with ⟨_, rfl⟩ | ⟨_, rfl⟩ <;> simp
  | pulseLongOff =>
    rcases execPulseLongOff_cases h with ⟨_, rfl⟩ | ⟨_, _, b, _, rfl⟩ | ⟨_, _, rfl⟩ <;> simp
  | txFrame =>
    rcases execTxFrame_cases h with ⟨_, rfl⟩ | ⟨_, _, rfl⟩ | ⟨_, _, he⟩
    · simp
    · simp
    · rcases endFrame_cases he with ⟨_, b, _, rfl⟩ | ⟨_, _, rfl⟩ | ⟨_, _, rfl⟩ <;> simp
  | pulseShortOn => rcases execPulseShortOn_cases h with ⟨_, rfl⟩ | ⟨_, rfl⟩ <;> simp
  | pulseShortOff =>
    rcases execPulseShortOff_cases h with ⟨_, rfl⟩ | ⟨_, _, rfl⟩ | ⟨_, _, rfl⟩ <;> simp

end Sys2Proof.Laws
end

