-- ==== Sys2Proof/Laws/Step.lean ====
section
/-! SUPPORT. What a step can do, and runs of several edges. -/

namespace Sys2Proof.Laws

open Sys2Proof.Machine

/-- The step's cases: what a next state can come from (R35, R31, R170). -/
theorem step_cases {s t : State} (h : step s = .next t) :
    s.cfg.Legal ∧
    ((s.rst = 1#1 ∧ t = nextEdge (applyReset s)) ∨
     (s.rst = 0#1 ∧ s.power = .unreset ∧ t = nextEdge (powerUpEdge s)) ∨
     (s.rst = 0#1 ∧ s.power = .up ∧
       ∃ i u, decode s.phase = .ok i ∧ exec i s = .next u ∧ t = nextEdge u)) := by
  unfold step at h
  split at h
  · cases h
  · rename_i hl
    refine ⟨hl, ?_⟩
    split at h
    · rename_i hr; injection h with h; exact .inl ⟨hr, h.symm⟩
    · rename_i hr
      have hr := (bit_ne_one_iff _).mp hr
      split at h
      · rename_i hp; injection h with h; exact .inr (.inl ⟨hr, hp, h.symm⟩)
      · rename_i hp
        split at h
        · cases h
        · rename_i i hd
          obtain ⟨u, hu, rfl⟩ := finishEdge_next h
          exact .inr (.inr ⟨hr, hp, i, u, hd, hu, rfl⟩)

/-- At a live edge the step is the decoded phase's meaning, then the inputs of the next edge. -/
theorem step_live {s : State} (hs : s.Live) {i : Instr} (hi : decode s.phase = .ok i) :
    step s = finishEdge (exec i s) := by
  obtain ⟨hl, hp, hr⟩ := hs
  simp [step, hl, hp, hr, hi]

/-- The decoder's table read as an equation (R64): a phase decodes to i exactly at i's code. -/
theorem decode_eq_ok_iff (w : PhaseCode) (i : Instr) : decode w = .ok i ↔ w = encode i := by
  revert w; cases i <;> decide

/-- A step from a phase whose meaning answers u. -/
theorem step_phase {s u : State} {i : Instr} (hs : s.Live) (hi : s.phase = encode i)
    (hu : exec i s = .next u) : step s = .next (nextEdge u) := by
  rw [step_live hs ((decode_eq_ok_iff _ _).mpr hi), hu, finishEdge]

@[simp] theorem edges_zero (s : State) : edges 0 s = .next s := rfl

/-- One edge, then the rest. -/
theorem edges_succ {s t : State} (n : Nat) (h : step s = .next t) : edges (n + 1) s = edges n t := by
  simp [edges, h]

/-- Runs compose. -/
theorem edges_add {s t : State} (m n : Nat) (h : edges m s = .next t) :
    edges (m + n) s = edges n t := by
  induction m generalizing s with
  | zero => injection h with h; subst h; simp
  | succ m ih =>
    cases hs : step s with
    | next u => rw [Nat.succ_add, edges_succ _ hs]; rw [edges_succ _ hs] at h; exact ih h
    | fault e => simp [edges, hs] at h
    | refused e => simp [edges, hs] at h

/-- A run of the model is a run of the host's machine. -/
theorem edges_eq_run (n : Nat) (s : State) : edges n s = Host.Core.run Sys2Proof.core n s := by
  induction n generalizing s with
  | zero => rfl
  | succ n ih =>
    cases h : step s with
    | next t =>
      have hc : Sys2Proof.core.step s = .next t := h
      rw [edges_succ n h]; simp only [Host.Core.run, hc]; exact ih t
    | fault e =>
      have hc : Sys2Proof.core.step s = .fault e := h
      simp only [Host.Core.run, hc, edges, h]
      rfl
    | refused e =>
      have hc : Sys2Proof.core.step s = .refused e := h
      simp only [Host.Core.run, hc, edges, h]
      rfl

theorem live_of_liveFor {s : State} {n : Nat} (h : s.LiveFor (n + 1)) : s.Live :=
  ⟨h.1, h.2.1, h.2.2 0 (Nat.succ_pos n)⟩

/-- A meaning followed by the end of its edge leaves the rest of the inputs to come. -/
theorem inputAt_after_exec {s u : State} {i : Instr} (h : exec i s = .next u) (j : Nat) :
    inputAt (nextEdge u) j = inputAt s (j + 1) := by
  obtain ⟨_, _, h1, h2, h3, h4, h5⟩ := exec_keeps_environment h
  rw [inputAt_nextEdge, inputAt_congr h1 h2 h3 h4 h5]

/-- If the coming n + 1 edges are live, then after one of them the next n are. -/
theorem liveFor_after_exec {s u : State} {i : Instr} {n : Nat} (hs : s.LiveFor (n + 1))
    (h : exec i s = .next u) : (nextEdge u).LiveFor n := by
  obtain ⟨hc, hp, _⟩ := exec_keeps_environment h
  refine ⟨by simpa [Config.Legal, hc] using hs.1, by simpa [hp] using hs.2.1, fun j hj => ?_⟩
  rw [inputAt_after_exec h]
  exact hs.2.2 (j + 1) (by omega)

end Sys2Proof.Laws
end

