-- ==== Sys2Proof/Laws/Bus.lean ====
section
/-! SUPPORT. The bus: what placing a node does to its state, which nodes drive, and what one edge of
all nodes can answer. -/

namespace Sys2Proof.Laws

open Sys2Proof.Machine

@[simp] theorem onBus_toRegs (k : Nat) (v : Bit) (s : State) : (s.onBus k v).toRegs = s.toRegs := rfl
@[simp] theorem onBus_cfg (k : Nat) (v : Bit) (s : State) : (s.onBus k v).cfg = s.cfg := rfl
@[simp] theorem onBus_power (k : Nat) (v : Bit) (s : State) : (s.onBus k v).power = s.power := rfl
@[simp] theorem onBus_rst (k : Nat) (v : Bit) (s : State) : (s.onBus k v).rst = s.rst := rfl
@[simp] theorem onBus_rxIn (k : Nat) (v : Bit) (s : State) : (s.onBus k v).rxIn = v := rfl
@[simp] theorem onBus_stim (k : Nat) (v : Bit) (s : State) : (s.onBus k v).stim = s.stim := rfl
@[simp] theorem onBus_edge (k : Nat) (v : Bit) (s : State) : (s.onBus k v).edge = s.edge := rfl
@[simp] theorem onBus_place (k : Nat) (v : Bit) (s : State) : (s.onBus k v).place = k := rfl

/-- A node drives exactly in TX_FRAME (log entry 6). -/
theorem nodeDrive_driving_iff (s : State) : (nodeDrive s).driving = true ↔ s.phase = encode .txFrame := by
  simp [nodeDrive]

/-- No step moves a node to another place, so its free draws stay apart from the other nodes'. -/
theorem step_place {s t : State} (h : step s = .next t) : t.place = s.place := by
  obtain ⟨_, ⟨_, rfl⟩ | ⟨_, _, rfl⟩ | ⟨_, _, _, u, _, hu, rfl⟩⟩ := step_cases h
  · rfl
  · rfl
  · exact (exec_keeps_environment hu).2.2.2.2.2.2

/-- An edge of some nodes, the first at place k, completes exactly as a step of each. -/
theorem stepNodes_cons {level : Nat → Bit} {k : Nat} {s : State} {l l' : List State} :
    stepNodes level k (s :: l) = .next l' ↔
      ∃ t ts, step (s.onBus k (level k)) = .next t ∧ stepNodes level (k + 1) l = .next ts ∧
        l' = t :: ts := by
  cases h : step (s.onBus k (level k)) with
  | next t => cases h' : stepNodes level (k + 1) l <;> simp [stepNodes, h, h', eq_comm]
  | fault e => simp [stepNodes, h]
  | refused e => simp [stepNodes, h]

end Sys2Proof.Laws
end

