-- ==== Sys2Proof/Laws/PerInstr.lean ====
section
/-! SUPPORT. Statements for all phases, one lemma a constructor: the phase code (R64). -/

namespace Sys2Proof.Laws.PhaseCoding

/-- A phase's code is one of 0..8 and decodes to that phase alone; no other row of the table matches it
(R64, R71). -/
def Statement (i : Instr) : Prop :=
  decode (encode i) = .ok i ∧ (encode i).toNat ≤ 8 ∧
    (phaseTable.filter fun r => encode i &&& r.mask == r.code).map (fun r => r.instr) = [i]

theorem start : Statement .start := by refine ⟨rfl, ?_, ?_⟩ <;> decide
theorem rxIdle : Statement .rxIdle := by refine ⟨rfl, ?_, ?_⟩ <;> decide
theorem rxData : Statement .rxData := by refine ⟨rfl, ?_, ?_⟩ <;> decide
theorem rxStop : Statement .rxStop := by refine ⟨rfl, ?_, ?_⟩ <;> decide
theorem pulseLongOn : Statement .pulseLongOn := by refine ⟨rfl, ?_, ?_⟩ <;> decide
theorem pulseLongOff : Statement .pulseLongOff := by refine ⟨rfl, ?_, ?_⟩ <;> decide
theorem txFrame : Statement .txFrame := by refine ⟨rfl, ?_, ?_⟩ <;> decide
theorem pulseShortOn : Statement .pulseShortOn := by refine ⟨rfl, ?_, ?_⟩ <;> decide
theorem pulseShortOff : Statement .pulseShortOff := by refine ⟨rfl, ?_, ?_⟩ <;> decide

end Sys2Proof.Laws.PhaseCoding
end

