-- ==== Sys2Proof/Laws/Runs.lean ====
section
/-! SUPPORT. Runs of several edges without reset, composed edge by edge: where the registers stand after
k edges, with the inputs to come k edges on. -/

namespace Sys2Proof.Laws

open Sys2Proof.Machine

/-- k edges lead from s to registers r; the parameters are kept and the inputs to come are k edges on. -/
def After (k : Nat) (s : State) (r : Regs) : Prop :=
  ∃ t, edges k s = .next t ∧ t.toRegs = r ∧ t.cfg = s.cfg ∧ t.power = .up ∧
    ∀ j, inputAt t j = inputAt s (k + j)

theorem liveFor_mono {s : State} {m n : Nat} (h : s.LiveFor n) (hm : m ≤ n) : s.LiveFor m :=
  ⟨h.1, h.2.1, fun j hj => h.2.2 j (by omega)⟩

/-- If k + n edges are live, then after k of them the next n are. -/
theorem liveFor_after {s t : State} {k n : Nat} (hs : s.LiveFor (k + n)) (hc : t.cfg = s.cfg)
    (hp : t.power = .up) (hj : ∀ j, inputAt t j = inputAt s (k + j)) : t.LiveFor n :=
  ⟨by rw [hc]; exact hs.1, hp, fun j h => by rw [hj]; exact hs.2.2 _ (by omega)⟩

/-- A live step comes from the meaning of the state's phase. -/
theorem step_of_live {s t : State} (hs : s.Live) (h : step s = .next t) :
    ∃ i u, s.phase = encode i ∧ exec i s = .next u ∧ t = nextEdge u := by
  obtain ⟨_, ⟨hr, _⟩ | ⟨_, hp, _⟩ | ⟨_, _, i, u, hd, hu, rfl⟩⟩ := step_cases h
  · rw [hs.2.2] at hr; cases hr
  · rw [hs.2.1] at hp; cases hp
  · exact ⟨i, u, (decode_eq_ok_iff _ _).mp hd, hu, rfl⟩

theorem after_zero {s : State} (hp : s.power = .up) : After 0 s s.toRegs :=
  ⟨s, rfl, rfl, rfl, hp, fun j => by rw [Nat.zero_add]⟩

/-- One live edge of a phase whose meaning answers u. -/
theorem after_exec {s u : State} {i : Instr} (hs : s.Live) (hi : s.phase = encode i)
    (hu : exec i s = .next u) : After 1 s u.toRegs := by
  obtain ⟨hc, hp, _⟩ := exec_keeps_environment hu
  refine ⟨nextEdge u, ?_, rfl, hc, hp.trans hs.2.1, fun j => ?_⟩
  · rw [edges_succ 0 (step_phase hs hi hu), edges_zero]
  · rw [inputAt_after_exec hu, Nat.add_comm]

/-- Runs compose: what holds of every state that stands where the first m edges lead. -/
theorem after_trans {s : State} {m n : Nat} {r r' : Regs} (h1 : After m s r)
    (h2 : ∀ t : State, t.toRegs = r → t.cfg = s.cfg → t.power = .up →
      (∀ j, inputAt t j = inputAt s (m + j)) → After n t r') : After (m + n) s r' := by
  obtain ⟨t, ht, hr, hc, hp, hj⟩ := h1
  obtain ⟨u, hu, hr', hc', hp', hj'⟩ := h2 t hr hc hp hj
  exact ⟨u, by rw [edges_add m n ht, hu], hr', hc'.trans hc, hp',
    fun j => by rw [hj', hj, Nat.add_assoc]⟩

end Sys2Proof.Laws
end

