-- ==== Sys2Proof/Machine/Scenario.lean ====
section
/-! DEFINITION. The scenario notation of spec/30_encoding.md R70: stimulus on `rx_in` and `rst`, the
assembly of this hardware. A scenario's lines expand to per-edge inputs and to nothing else. What the
notation leaves open: log entry 12. -/

namespace Sys2Proof.Machine

/-- One stimulus line of R70. -/
inductive Stim where
  /-- `reset`: `rst = 1` at one edge; the next edge is edge 0. -/
  | resetEdge
  /-- `idle n`: `rx_in = 0` at the next n edges. -/
  | idle (n : Nat)
  /-- `active n`: `rx_in = 1` at the next n edges. -/
  | active (n : Nat)
  /-- `frame b`: slots 0..10 of the frame of b, B edges a slot. -/
  | frame (b : Byte)
  /-- `at e`: the next stimulus starts at edge e; `rx_in = 0` at the edges before it. -/
  | startAt (e : Nat)
  deriving DecidableEq, Repr

/-- The `rx_in` levels of `frame b` (R60, R70). -/
def frameLevels (bitCycles : Nat) (b : Byte) : List Bit :=
  ((List.range 11).map fun j => List.replicate bitCycles (slotLevel b (BitVec.ofNat 4 j))).flatten

/-- n edges with `rst` low and `rx_in` at a level. -/
def hold (n : Nat) (v : Bit) : List Input := List.replicate n ⟨0#1, v⟩

/-- The inputs of the lines, in two parts: those up to the last `reset` line and those since it, from
whose first edge `at` and `run` count. None where an `at` names an edge that earlier lines already
cover. -/
def expandStims (bitCycles : Nat) :
    List Stim → List Input → List Input → Option (List Input × List Input)
  | [], before, since => some (before, since)
  | .resetEdge :: rest, before, since =>
    expandStims bitCycles rest (before ++ since ++ [⟨1#1, 0#1⟩]) []
  | .idle n :: rest, before, since => expandStims bitCycles rest before (since ++ hold n 0#1)
  | .active n :: rest, before, since => expandStims bitCycles rest before (since ++ hold n 1#1)
  | .frame b :: rest, before, since =>
    expandStims bitCycles rest before (since ++ (frameLevels bitCycles b).map fun v => ⟨0#1, v⟩)
  | .startAt e :: rest, before, since =>
    if since.length ≤ e then expandStims bitCycles rest before (since ++ hold (e - since.length) 0#1)
    else none

/-- A scenario: its `config` line, its stimulus lines (the first is `reset`), and the n of its `run n`
line. -/
structure Scenario where
  cfg : Config
  stims : List Stim
  runTo : Nat
  deriving DecidableEq, Repr

/-- The state before a scenario's first edge: a power-up state whose coming inputs are the stimulus,
followed by IDLE levels up to the last edge of the run. -/
def scenarioStart (c : Config) (inputs : List Input) : State :=
  { State.powerUp 0 c with
    rst := (inputs.headD ⟨0#1, 0#1⟩).rst, rxIn := (inputs.headD ⟨0#1, 0#1⟩).rx,
    stim := inputs.tail }

/-- A scenario's start state, and the number of edges up to and with its last `reset` line. None where
the notation cannot be expanded. -/
def Scenario.setup (sc : Scenario) : Option (Nat × State) :=
  match expandStims sc.cfg.bitCycles sc.stims [] [] with
  | none => none
  | some (before, since) =>
    some (before.length,
      scenarioStart sc.cfg (before ++ since ++ hold (sc.runTo - since.length) 0#1))

/-- `end:` of R70: `S[n]` at the end of a scenario's run, edges 0..n-1 after its last `reset` line. -/
def Scenario.endState (sc : Scenario) : Option Result :=
  match sc.setup with
  | none => none
  | some (before, s) => some (edges (before + sc.runTo) s)

/-- The states of a run, the first one included; it ends early at a fault or a refusal. -/
def trace : Nat → State → List State
  | 0, s => [s]
  | n + 1, s =>
    match step s with
    | .next t => s :: trace n t
    | .fault _ => [s]
    | .refused _ => [s]

/-- `S[0]` .. `S[n]` of a scenario. -/
def Scenario.states (sc : Scenario) : List State :=
  match sc.setup with
  | none => []
  | some (before, s) => (trace (before + sc.runTo) s).drop before

/-- `status:` of R70: each n with `S[n].status_out = v`, v differing from the value before. -/
def statusChanges : Nat → List State → List (Nat × Bit)
  | n, s :: t :: rest =>
    if s.statusOut = t.statusOut then statusChanges (n + 1) (t :: rest)
    else (n + 1, t.statusOut) :: statusChanges (n + 1) (t :: rest)
  | _, [_] => []
  | _, [] => []

/-- `tx:` of R70: the bytes an ideal receiver decodes from a line, at most `fuel` of them. It finds each
start bit at its first ACTIVE value and samples at `H + (k+1) B` after it (spec/95_test_vectors.md,
section 0). Two points the spec leaves open are the model's choice (DESIGN CHOICE, safe; log entry 12).
It looks for the next start bit from 10 B after the last one on, past the stop bit. Where the line ends
inside a frame, the byte counts exactly if its eighth sample, `H + 8 B` after the start, lies within the
line, even if its stop bit does not; a frame cut earlier gives no byte. -/
def idealBytes (bitCycles : Nat) : Nat → List Bit → List Byte
  | 0, _ => []
  | fuel + 1, line =>
    match line.dropWhile (fun v => v == 0#1) with
    | [] => []
    | v :: rest =>
      if (v :: rest).length ≤ bitCycles / 2 + 8 * bitCycles then []
      else
        (List.range 8).foldl
          (fun b k => setBit b (BitVec.ofNat 3 k)
            (bitOfLevel ((v :: rest).getD (bitCycles / 2 + (k + 1) * bitCycles) 0#1))) 0#8
          :: idealBytes bitCycles fuel ((v :: rest).drop (10 * bitCycles))

end Sys2Proof.Machine
end

