-- ==== Sys2Proof/Tests/Slice0.lean ====
section
/-! SUPPORT. Small tests, each with the place in spec/ its expected result comes from; an ill-formed
configuration for each check; and for each statement with hypotheses a state that meets them all. -/

namespace Sys2Proof.Tests

open Sys2Proof Sys2Proof.Machine

/-- The registers of a next state. -/
def regsOf (r : Result) : Option Regs :=
  match r with
  | .next s => some s.toRegs
  | .fault _ => none
  | .refused _ => none

/-- The refusal of an outcome. -/
def refusalOf (r : Result) : Option Refusal :=
  match r with
  | .next _ => none
  | .fault _ => none
  | .refused e => some e

/-- The fault of an outcome. -/
def faultIn (r : Result) : Option Fault :=
  match r with
  | .next _ => none
  | .fault f => some f
  | .refused _ => none

/-- Config T in a phase, with the registers of reset otherwise. -/
def probe (i : Instr) : State := { State.resetOf Config.vectorT with phase := encode i }

/-! ## Decoding, from the table of 30_encoding.md R64 -/

theorem test_decode_start : decode 0b0000#4 = .ok .start := rfl
theorem test_decode_rxData : decode 0b0010#4 = .ok .rxData := rfl
theorem test_decode_txFrame : decode 0b0110#4 = .ok .txFrame := rfl
theorem test_decode_pulseShortOff : decode 0b1000#4 = .ok .pulseShortOff := rfl
theorem test_decode_reserved : decode 0b1001#4 = .error (.reservedPhase 9#4) := rfl
/-- Every word and its encoding, as the table's rows give them. -/
theorem test_encode_all :
    [Instr.start, .rxIdle, .rxData, .rxStop, .pulseLongOn, .pulseLongOff, .txFrame, .pulseShortOn,
      .pulseShortOff].map encode =
      [0b0000#4, 0b0001#4, 0b0010#4, 0b0011#4, 0b0100#4, 0b0101#4, 0b0110#4, 0b0111#4, 0b1000#4] := rfl
theorem test_table_word : decodeTableWord 8 5 = some .pulseLongOff := rfl
theorem test_table_word_reserved : decodeTableWord 8 12 = none := rfl
/-- No two rows of the table match one code. -/
theorem test_rows_disjoint :
    phaseTable.Pairwise fun r q => ∀ w : PhaseCode, ¬ (w &&& r.mask = r.code ∧ w &&& q.mask = q.code) := by
  decide
/-- `msg_sel` codes (30_encoding.md R66). -/
theorem test_msgSel_codes : MsgSel.banner.code = 0#1 ∧ MsgSel.ofCode 1#1 = .reply := ⟨rfl, rfl⟩

/-! ## The wire frame, 95_test_vectors.md L2-E1 and L2-E2 -/

/-- The levels of slots 0..10. -/
def slots (b : Byte) : List Nat := (List.range 11).map fun j => (slotLevel b (BitVec.ofNat 4 j)).toNat

theorem test_slots_41 : slots 0x41#8 = [1, 0, 1, 1, 1, 1, 1, 0, 1, 0, 0] := by decide
theorem test_slots_80 : slots 0x80#8 = [1, 1, 1, 1, 1, 1, 1, 1, 0, 0, 0] := by decide
theorem test_slots_35 : slots 0x35#8 = [1, 0, 1, 0, 1, 0, 0, 1, 1, 0, 0] := by decide
/-- Samples 1 1 1 1 0 0 1 1 give 0x30. -/
theorem test_assembly_30 :
    ([(0#3, 1#1), (1#3, 1#1), (2#3, 1#1), (3#3, 1#1), (4#3, 0#1), (5#3, 0#1), (6#3, 1#1), (7#3, 1#1)].foldl
      (fun b p => setBit b p.1 (bitOfLevel p.2)) 0xFF#8) = 0x30#8 := by decide

/-! ## Configurations, 00_scope.md R6 and R7 -/

theorem test_defaults_legal : Config.vectorD.Legal := by decide
theorem test_vectorT_legal : Config.vectorT.Legal := by decide
theorem test_odd_refused : ({ Config.vectorT with bitCycles := 5 } : Config).flaw = some .oddBitCycles := by decide
theorem test_zero_bit_refused :
    ({ Config.vectorT with bitCycles := 0 } : Config).flaw = some .bitCyclesBelowTwo := by decide
theorem test_zero_short_refused :
    ({ Config.vectorT with shortCycles := 0 } : Config).flaw = some .zeroShortCycles := by decide
theorem test_zero_long_refused :
    ({ Config.vectorT with longCycles := 0 } : Config).flaw = some .zeroLongCycles := by decide
theorem test_long_not_longer_refused :
    ({ Config.vectorT with longCycles := 2 } : Config).flaw = some .longNotLonger := by decide
theorem test_empty_banner_refused :
    ({ Config.vectorT with banner := [] } : Config).flaw = some .emptyBanner := by decide
theorem test_zero_in_banner_refused :
    ({ Config.vectorT with banner := [0x41#8, 0#8] } : Config).flaw = some .zeroInBanner := by decide
theorem test_zero_in_prefix_refused :
    ({ Config.vectorT with replyPrefix := [0#8] } : Config).flaw = some .zeroInReplyPrefix := by decide
/-- L2-T4: the largest load of config T is 5, which needs 3 bits. -/
theorem test_narrow_counter_refused :
    ({ Config.vectorT with cntWidth := 2 } : Config).flaw = some .narrowCounter := by decide
theorem test_narrow_index_refused :
    ({ Config.vectorT with idxWidth := 1 } : Config).flaw = some .narrowIndex := by decide
/-- 20_memory.md R41: the default lengths, with and without the sentinel. -/
theorem test_default_lengths :
    msgLen State.reset .banner = 22 ∧ msgLen State.reset .reply = 13 ∧
      msgLen (State.resetOf { Config.vectorD with sendSentinel := false }) .reply = 12 := by decide

/-! ## One step of each phase, config T (B = 4, L = 3, SH = 2) -/

/-- 43_dispatch.md R131, example: `S[1]`. -/
theorem test_start :
    (regsOf (step (State.resetOf Config.vectorT))).map (fun r => (r.phase, r.txOut, r.txByte, r.cnt)) =
      some (6#4, 1#1, 0x41#8, 3) := by decide
/-- 41_receiver.md R90, example: `cnt = 5`. -/
theorem test_rxIdle_detects :
    (regsOf (step { probe .rxIdle with rxIn := 1#1 })).map (fun r => (r.phase, r.cnt, r.rxBit)) =
      some (2#4, 5, 0#3) := by decide
/-- 41_receiver.md R97. -/
theorem test_rxIdle_waits : regsOf (step (probe .rxIdle)) = some (probe .rxIdle).toRegs := by decide
/-- 41_receiver.md R91: an IDLE sample of bit 4 writes a 1 and goes on to bit 5. -/
theorem test_rxData_samples :
    (regsOf (step { probe .rxData with rxBit := 4#3 })).map (fun r => (r.rxShift, r.rxBit, r.cnt)) =
      some (0x10#8, 5#3, 3) := by decide
/-- 41_receiver.md R91: an ACTIVE sample of bit 7 clears it, keeps `rx_bit` and enters RX_STOP. -/
theorem test_rxData_last :
    (regsOf (step { probe .rxData with rxBit := 7#3, rxShift := 0xB0#8, rxIn := 1#1 })).map
      (fun r => (r.rxShift, r.rxBit, r.cnt, r.phase)) = some (0x30#8, 7#3, 5, 3#4) := by decide
/-- 41_receiver.md R92, example. -/
theorem test_rxStop_delivers :
    (regsOf (step { probe .rxStop with rxShift := 0x30#8 })).map
      (fun r => (r.addr, r.statusOut, r.phase, r.cnt)) = some (0x30#8, 0#1, 4#4, 2) := by decide
/-- 43_dispatch.md R132, example. -/
theorem test_pulseLongOn_ends :
    (regsOf (step { probe .pulseLongOn with statusOut := 0#1 })).map
      (fun r => (r.statusOut, r.phase, r.cnt)) = some (1#1, 5#4, 2) := by decide
/-- 43_dispatch.md R133, example: `addr = 0x30` starts the reply 4E. -/
theorem test_pulseLongOff_match :
    (regsOf (step { probe .pulseLongOff with addr := 0x30#8 })).map
      (fun r => (r.phase, r.txOut, r.txByte, r.msgSel)) = some (6#4, 1#1, 0x4E#8, .reply) := by decide
/-- 43_dispatch.md R133, example: `addr = 0x35` returns to RX_IDLE. -/
theorem test_pulseLongOff_mismatch :
    (regsOf (step { probe .pulseLongOff with addr := 0x35#8 })).map (fun r => (r.phase, r.txOut)) =
      some (1#4, 0#1) := by decide
/-- 42_transmitter.md R112, example for 0x41: slot 0 to slot 1, data bit 0 = 1, IDLE. -/
theorem test_txFrame_slot :
    (regsOf (step { probe .txFrame with txByte := 0x41#8, txOut := 1#1 })).map
      (fun r => (r.txSlot, r.txOut, r.cnt)) = some (1#4, 0#1, 3) := by decide
/-- 42_transmitter.md R115, example: the 0x00 frame follows 0x41 at the same edge. -/
theorem test_txFrame_next_byte :
    (regsOf (step { probe .txFrame with txByte := 0x41#8, txSlot := 10#4 })).map
      (fun r => (r.txByte, r.msgIdx, r.txSlot, r.txOut, r.phase)) = some (0x00#8, 1, 0#4, 1#1, 6#4) := by decide
/-- 43_dispatch.md R134, example (SH = 2). -/
theorem test_pulseShortOn_ends :
    (regsOf (step { probe .pulseShortOn with statusOut := 0#1 })).map
      (fun r => (r.statusOut, r.phase, r.cnt)) = some (1#1, 8#4, 1) := by decide
/-- 43_dispatch.md R135: the first pulse is followed by the second. -/
theorem test_pulseShortOff_repeats :
    (regsOf (step (probe .pulseShortOff))).map (fun r => (r.pulseN, r.statusOut, r.phase, r.cnt)) =
      some (1#1, 0#1, 7#4, 1) := by decide
/-- 43_dispatch.md R135: the second pulse is the last. -/
theorem test_pulseShortOff_ends :
    (regsOf (step { probe .pulseShortOff with pulseN := 1#1 })).map (fun r => (r.pulseN, r.phase)) =
      some (0#1, 1#4) := by decide
/-- L2-Z4. -/
theorem test_reserved_faults :
    faultIn (step { probe .start with phase := 9#4 }) = some (.reservedPhase 9#4) := by decide
/-- L2-Z5. -/
theorem test_reset_clears_reserved :
    regsOf (step { probe .start with phase := 15#4, rst := 1#1 }) = some Regs.reset := by decide
/-- 00_scope.md R7. -/
theorem test_illegal_refused :
    refusalOf (step (State.resetOf { Config.vectorT with bitCycles := 3 })) =
      some (.refuseConfig .oddBitCycles) := by decide
/-- A scripted input reaches the port one edge later (00_scope.md R8). -/
theorem test_inputs_follow :
    (match step { probe .rxIdle with stim := [⟨0#1, 1#1⟩] } with
      | .next s => (s.rxIn, s.stim) | .fault _ => (0#1, []) | .refused _ => (0#1, [])) = (1#1, []) := by decide
/-- 30_encoding.md R70: `frame` is 11 B edges, and `at` pads with IDLE. -/
theorem test_scenario_expands :
    (expandStims 2 [.startAt 3, .frame 0x30#8] [] []).map (fun p => (p.2.length, p.2.countP (·.rx = 1#1))) =
      some (25, 14) := by decide

/-- Where the line ends inside a frame (log entry 12): with B = 2 the eighth sample of a frame is 17 edges
after its start, so 18 values give the byte and 17 give none. -/
theorem test_tx_cut_frame :
    idealBytes 2 4 ((frameLevels 2 0x30#8).take 18) = [0x30#8] ∧
      idealBytes 2 4 ((frameLevels 2 0x30#8).take 17) = [] := by decide

/-- Each row's word, placed after reset, is run by the very next step (30_encoding.md R64). -/
theorem test_placed_words_run : ∀ w < 9, (regsOf (step (State.reset.withFetchWord 8 w))).isSome := by decide

/-! ## Witnesses: states that meet the hypotheses of the statements -/

/-- n edges without reset and with an IDLE line. -/
def quiet (n : Nat) : List Input := List.replicate n ⟨0#1, 0#1⟩

/-- The smallest legal durations: B = 2, L = 2, SH = 1. -/
def tiny : Config := { Config.vectorT with bitCycles := 2, longCycles := 2, shortCycles := 1, cntWidth := 2 }

/-- A phase under `tiny`, with quiet inputs for n edges after the coming one. -/
def calm (i : Instr) (n : Nat) : State :=
  { State.resetOf tiny with phase := encode i, stim := quiet n }

/-- A detection edge under `tiny`, followed by scripted levels. -/
def detects (levels : List Bit) : State :=
  { calm .rxIdle 0 with rxIn := 1#1, stim := levels.map fun v => ⟨0#1, v⟩ }

/-- The state after `LoadFrame` of a byte under `tiny`. -/
def frameBegun (b : Byte) (n : Nat) : State :=
  { calm .txFrame n with txByte := b, txOut := 1#1, cnt := 1 }

/-- The state after the delivery of a byte under `tiny`. -/
def delivered (b : Byte) (n : Nat) : State :=
  { calm .pulseLongOn n with addr := b, statusOut := 0#1, cnt := 1 }

/-- The state after a reply's end under `tiny`. -/
def replied (n : Nat) : State := { calm .pulseShortOn n with statusOut := 0#1 }

theorem witness_ExactlyIllegalConfigurationsAreRefused :
    (∃ r, step (State.resetOf { Config.vectorT with bitCycles := 3 }) = .refused r) ∧ tiny.Legal :=
  ⟨⟨_, rfl⟩, by decide⟩
theorem witness_ResetEdgeGivesResetState :
    ({ probe .start with phase := 9#4, rst := 1#1 } : State).cfg.Legal ∧
      ({ probe .start with phase := 9#4, rst := 1#1 } : State).rst = 1#1 := by decide
theorem witness_PowerUpRegistersAreFreeDraws :
    ({ probe .start with power := .unreset } : State).cfg.Legal ∧
      ({ probe .start with power := .unreset } : State).power = .unreset ∧
      ({ probe .start with power := .unreset } : State).rst = 0#1 := by decide
theorem witness_FaultsAreExactlyReservedPhases :
    ({ probe .start with phase := 9#4 } : State).Live ∧ 9#4 ≤ ({ probe .start with phase := 9#4 } : State).phase := by
  decide
theorem witness_StepRunsTheDecodedPhase :
    (probe .rxStop).Live ∧ decode (probe .rxStop).phase = .ok .rxStop ∧
      ∃ u, exec .rxStop (probe .rxStop) = .next u := ⟨by decide, rfl, _, rfl⟩
theorem witness_EachEdgeConsumesOneInput : ∃ t, step (probe .rxIdle) = .next t := ⟨_, rfl⟩
theorem witness_ConfigurationNeverChanges : ∃ t, step (probe .txFrame) = .next t := ⟨_, rfl⟩
theorem witness_EveryPhaseRuleCompletes : (probe .start).cfg.Legal := by decide
theorem witness_PhaseCodesDecodeAsTabled : 9#4 ≤ 9#4 ∧ 9#4 ≤ 15#4 := by decide
theorem witness_PlacedWordIsTheNextPhaseRun :
    (probe .start).cfg.Legal ∧ decodeTableWord 8 8 = some .pulseShortOff := by decide
theorem witness_MessageBytesByIndex :
    0 < (probe .start).cfg.banner.length ∧ (probe .start).cfg.banner.length < 2 ∧
      (probe .start).cfg.replyPrefix.length + 2 < 4 := by decide
theorem witness_MessageLengthIsFixedByConfiguration :
    (probe .start).cfg = ({ probe .start with addr := 0xFF#8 } : State).cfg ∧ (probe .start).cfg.Legal := by decide
theorem witness_StartBeginsTheBanner :
    (probe .start).cfg.Legal ∧ (probe .start).phase = encode .start ∧
      ∃ t, exec .start (probe .start) = .next t := ⟨by decide, rfl, _, rfl⟩
theorem witness_RxIdleDetectsOrWaits :
    ({ probe .rxIdle with rxIn := 1#1 } : State).rxIn = 1#1 ∧ (probe .rxIdle).rxIn = 0#1 := by decide
theorem witness_RxDataCountsAndSamples :
    ({ probe .rxData with cnt := 1 } : State).cnt ≠ 0 ∧ (probe .rxData).cnt = 0 ∧
      ({ probe .rxData with rxBit := 7#3 } : State).rxBit = 7#3 ∧
      ({ probe .rxData with rxBit := 6#3 } : State).rxBit ≠ 7#3 := by decide
theorem witness_RxStopDeliversTheByte :
    ({ probe .rxStop with cnt := 1 } : State).cnt ≠ 0 ∧ (probe .rxStop).cnt = 0 := by decide
theorem witness_PulseLongOnEndsInOff :
    ({ probe .pulseLongOn with cnt := 1 } : State).cnt ≠ 0 ∧ (probe .pulseLongOn).cnt = 0 := by decide
theorem witness_PulseLongOnEndsInOff_entry :
    ∃ t, exec .rxStop (probe .rxStop) = .next t ∧ (probe .rxStop).phase = encode .rxStop ∧
      (probe .rxStop).phase ≠ 4#4 ∧ t.phase = 4#4 := ⟨_, rfl, rfl, by decide, rfl⟩
theorem witness_PulseLongOffComparesTheAddress :
    ({ probe .pulseLongOff with cnt := 1 } : State).cnt ≠ 0 ∧ (probe .pulseLongOff).cnt = 0 ∧
      ({ probe .pulseLongOff with addr := 0x30#8 } : State).addr = (probe .pulseLongOff).cfg.nodeId ∧
      ({ probe .pulseLongOff with addr := 0x31#8 } : State).addr ≠ (probe .pulseLongOff).cfg.nodeId := by decide
theorem witness_TxFrameHoldsAndAdvancesSlots :
    ({ probe .txFrame with cnt := 1 } : State).cnt ≠ 0 ∧ (probe .txFrame).cnt = 0 ∧
      ({ probe .txFrame with txSlot := 9#4 } : State).txSlot < 10#4 := by decide
/-- A TX_FRAME state at a frame's end. -/
def frameEnded (sel : MsgSel) (idx : Nat) : State :=
  { probe .txFrame with txSlot := 10#4, msgSel := sel, msgIdx := idx }
theorem witness_FrameEndContinuesOrEndsTheMessage :
    (frameEnded .reply 2).cnt = 0 ∧ 10#4 ≤ (frameEnded .reply 2).txSlot ∧
      (frameEnded .reply 2).msgIdx + 1 < msgLen (frameEnded .reply 2) .reply ∧
      msgLen (frameEnded .banner 1) .banner ≤ (frameEnded .banner 1).msgIdx + 1 ∧
      msgLen (frameEnded .reply 3) .reply ≤ (frameEnded .reply 3).msgIdx + 1 := by decide
theorem witness_PulseShortOnEndsInOff :
    ({ probe .pulseShortOn with cnt := 1 } : State).cnt ≠ 0 ∧ (probe .pulseShortOn).cnt = 0 := by decide
theorem witness_PulseShortOnEndsInOff_entries :
    (∃ t, exec .txFrame (frameEnded .reply 3) = .next t ∧ (frameEnded .reply 3).phase ≠ 7#4 ∧ t.phase = 7#4) ∧
      ∃ t, exec .pulseShortOff (probe .pulseShortOff) = .next t ∧ t.phase = 7#4 :=
  ⟨⟨_, rfl, by decide, rfl⟩, _, rfl, rfl⟩
theorem witness_PulseShortOffRepeatsOnce :
    ({ probe .pulseShortOff with cnt := 1 } : State).cnt ≠ 0 ∧ (probe .pulseShortOff).cnt = 0 ∧
      (probe .pulseShortOff).pulseN = 0#1 ∧
      ({ probe .pulseShortOff with pulseN := 1#1 } : State).pulseN = 1#1 := by decide
theorem witness_PhasesWriteOnlyTheirFields :
    (∃ t, exec .rxData (probe .rxData) = .next t) ∧ ∃ t, exec .txFrame (probe .txFrame) = .next t :=
  ⟨⟨_, rfl⟩, _, rfl⟩
theorem witness_LineIsReadOnlyWhenWatched :
    Instr.rxStop ≠ .rxIdle ∧ (Instr.rxStop ≠ .rxData ∨ (probe .rxStop).cnt ≠ 0) ∧
      (∃ t, exec .rxStop (probe .rxStop) = .next t) ∧
      ({ probe .rxData with cnt := 1 } : State).cnt ≠ 0 ∧
      ∃ t, exec .rxData { probe .rxData with cnt := 1 } = .next t :=
  ⟨by decide, by decide, ⟨_, rfl⟩, by decide, _, rfl⟩
theorem witness_AddressIsWrittenByDeliveryAlone :
    ∃ t, ({ probe .rxStop with rxShift := 0x30#8 } : State).Live ∧
      step { probe .rxStop with rxShift := 0x30#8 } = .next t ∧ t.addr ≠ (probe .rxStop).addr :=
  ⟨_, by decide, rfl, (by decide : (0x30#8) ≠ 0x00#8)⟩
theorem witness_PhasesFollowTheStateMachine :
    ∃ t, (probe .start).Live ∧ step (probe .start) = .next t ∧ t.phase ≠ (probe .start).phase :=
  ⟨_, by decide, rfl, (by decide : (6#4) ≠ 0#4)⟩
theorem witness_OnlyAMatchStartsAReply :
    ∃ t, ({ probe .pulseLongOff with addr := 0x30#8 } : State).Live ∧
      step { probe .pulseLongOff with addr := 0x30#8 } = .next t ∧
      (probe .pulseLongOff).phase ≠ 6#4 ∧ t.phase = 6#4 :=
  ⟨_, by decide, rfl, by decide, rfl⟩
/-- The invariant's phase conditions at a state of TX_FRAME: the first slot of the banner. -/
theorem inv_frameBegun : (frameBegun 0x41#8 0).Inv :=
  fun _ => ⟨by decide, by decide, .txFrame, rfl, by decide, rfl, by decide, fun _ => ⟨rfl, rfl, by decide⟩⟩
theorem witness_ConditionsMatchTheRulesTests :
    (frameBegun 0x41#8 0).Inv ∧ (frameBegun 0x41#8 0).power = .up ∧ (frameBegun 0x41#8 0).phase = 6#4 :=
  ⟨inv_frameBegun, rfl, rfl⟩
theorem witness_EveryStepKeepsTheInvariant :
    ∃ t, (frameBegun 0x41#8 0).Inv ∧ step (frameBegun 0x41#8 0) = .next t := ⟨_, inv_frameBegun, rfl⟩
theorem witness_InvariantStatesStepToInvariantStates :
    (frameBegun 0x41#8 0).cfg.Legal ∧ (frameBegun 0x41#8 0).Inv := ⟨by decide, inv_frameBegun⟩
theorem witness_InvariantHoldsAtReset : Config.vectorT.Legal := by decide
theorem witness_CountersFitTheirWidths :
    (frameBegun 0x41#8 0).cfg.Legal ∧ (frameBegun 0x41#8 0).power = .up ∧ (frameBegun 0x41#8 0).Inv :=
  ⟨by decide, rfl, inv_frameBegun⟩
theorem witness_RunsFromResetNeverStop : tiny.Legal := by decide
theorem witness_OutputsFollowThePhaseInEveryRun :
    tiny.Legal ∧ ∃ t, edges 2 { State.resetOf tiny with rxIn := 1#1, stim := [⟨1#1, 0#1⟩] } = .next t :=
  ⟨by decide, _, rfl⟩
theorem witness_DelaysCountExactly :
    ({ calm .rxStop 1 with cnt := 2 } : State).phase = encode .rxStop ∧ Instr.rxStop ≠ .start ∧
      Instr.rxStop ≠ .rxIdle ∧ 2 ≤ ({ calm .rxStop 1 with cnt := 2 } : State).cnt ∧
      ({ calm .rxStop 1 with cnt := 2 } : State).LiveFor 2 := by decide
theorem witness_IdleLineIsWaitedOut :
    (calm .rxIdle 3).phase = 1#4 ∧ (calm .rxIdle 3).LiveFor 4 ∧
      ∀ j < 4, (inputAt (calm .rxIdle 3) j).rx = 0#1 := by decide
/-- The rest of `frame 0x30` after its detection edge, B = 2. -/
def frame30 : List Bit := (frameLevels 2 0x30#8).tail
theorem witness_ReceptionSamplesBitCentres :
    (detects frame30).phase = 1#4 ∧ (detects frame30).LiveFor (10 * (detects frame30).cfg.bitCycles + 1) ∧
      (inputAt (detects frame30) 0).rx = 1#1 := by decide
theorem witness_GlitchAndStuckLineBytes :
    ((detects (List.replicate 20 0#1)).LiveFor 21 ∧
      ∀ j < 20, (inputAt (detects (List.replicate 20 0#1)) (j + 1)).rx = 0#1) ∧
    (detects (List.replicate 20 1#1)).LiveFor 21 ∧
      ∀ j < 21, (inputAt (detects (List.replicate 20 1#1)) j).rx = 1#1 := by decide
theorem witness_FrameOccupiesElevenBitPeriods :
    (frameBegun 0x41#8 20).FrameBegun ∧ 21 < 11 * (frameBegun 0x41#8 20).cfg.bitCycles ∧
      (frameBegun 0x41#8 20).LiveFor 21 := by decide
/-- The state after `StartMessage` of the reply under `tiny`. -/
def replyBegun (n : Nat) : State := { frameBegun 0x4E#8 n with msgSel := .reply, addr := 0x30#8 }
theorem witness_MessageFramesAreBackToBack :
    (replyBegun 88).MessageBegun ∧ 4 ≤ msgLen (replyBegun 88) (replyBegun 88).msgSel ∧
      (replyBegun 88).LiveFor (11 * (replyBegun 88).cfg.bitCycles * 4) ∧
      (frameBegun 0x41#8 44).MessageBegun ∧ (frameBegun 0x41#8 44).LiveFor (11 * 2 * 2) := by decide
theorem witness_ReceiverReadsBackTheFrameSent :
    (frameBegun 0x30#8 22).FrameBegun ∧ (detects frame30).phase = 1#4 ∧
      (frameBegun 0x30#8 22).cfg.bitCycles = (detects frame30).cfg.bitCycles ∧
      (frameBegun 0x30#8 22).LiveFor 22 ∧ (detects frame30).LiveFor 21 ∧
      ∀ j < 21, txLine j (frameBegun 0x30#8 22) = some (inputAt (detects frame30) j).rx := by decide
/-- Both clauses, with B = 2 and H = 1: the byte 0x35 seen with d = 0 and with d = 1. -/
def seen35 (d : Nat) : State := detects (((frameLevels 2 0x35#8) ++ [0#1, 0#1]).drop (d + 1))
theorem witness_LateDetectionIsHarmlessWithinAHalfBit :
    (frameBegun 0x35#8 22).FrameBegun ∧ (frameBegun 0x35#8 22).LiveFor 22 ∧
      ∀ d < 2, (seen35 d).phase = 1#4 ∧ (seen35 d).cfg.bitCycles = 2 ∧ (seen35 d).LiveFor 21 ∧
        ∀ j < 21, txLine (j + d) (frameBegun 0x35#8 22) = some (inputAt (seen35 d) j).rx := by decide
/-- Just before START, with registers that are not those of reset. -/
def starting (n : Nat) : State := { calm .start n with txSlot := 9#4, addr := 0x30#8, msgSel := .reply, cnt := 3 }
theorem witness_StartupListensAfterTheBanner :
    (starting 44).phase = 0#4 ∧
      (starting 44).LiveFor (11 * (starting 44).cfg.bitCycles * msgLen (starting 44) .banner + 1) := by decide
theorem witness_MismatchGivesOneLongPulse :
    (delivered 0x35#8 4).LongPulseBegun ∧ (delivered 0x35#8 4).addr ≠ (delivered 0x35#8 4).cfg.nodeId ∧
      4 ≤ 2 * (delivered 0x35#8 4).cfg.longCycles ∧ (delivered 0x35#8 4).LiveFor 4 := by decide
theorem witness_MatchStartsTheReplyAfterTheLongPulse :
    (delivered 0x30#8 4).LongPulseBegun ∧ (delivered 0x30#8 4).addr = (delivered 0x30#8 4).cfg.nodeId ∧
      4 ≤ 2 * (delivered 0x30#8 4).cfg.longCycles ∧ (delivered 0x30#8 4).LiveFor 4 := by decide
theorem witness_TwoShortPulsesFollowAReply :
    (replied 4).ShortPulsesBegun ∧ 4 ≤ 4 * (replied 4).cfg.shortCycles ∧ (replied 4).LiveFor 4 := by decide
/-- A detection of `frame 0x30`, with a quiet line after it. -/
def cycle30 : State := { detects frame30 with stim := (frame30.map fun v => ⟨0#1, v⟩) ++ quiet 100 }
theorem witness_BlindWindowOfADispatchCycle_match :
    cycle30.phase = 1#4 ∧ (inputAt cycle30 0).rx = 1#1 ∧
      (∀ k < 8, cycle30.cfg.nodeId.getLsbD k = decide ((inputAt cycle30 (1 + (k + 1) * 2)).rx = 0#1)) ∧
      116 = 10 * cycle30.cfg.bitCycles + 2 * cycle30.cfg.longCycles +
        (11 * cycle30.cfg.bitCycles * msgLen cycle30 .reply + 4 * cycle30.cfg.shortCycles) ∧
      cycle30.LiveFor 117 := by decide
theorem witness_BlindWindowOfADispatchCycle_mismatch :
    (detects (List.replicate 30 0#1)).LiveFor 25 ∧
      ¬ ∀ k < 8, (detects (List.replicate 30 0#1)).cfg.nodeId.getLsbD k =
        decide ((inputAt (detects (List.replicate 30 0#1)) (1 + (k + 1) * 2)).rx = 0#1) := by decide
/-- A bus of two waiting nodes and one that sends. -/
def smallBus (t : Topology) : Bus :=
  { topology := t, nodes := [probe .rxIdle, probe .txFrame, probe .rxIdle], edge := 0 }
/-- Every clause, and the node that sends as one of two drivers. -/
theorem witness_BusLevelByDrivers :
    (smallBus .split).topology = .split ∧ (smallBus .shared).topology = .shared ∧
      (∀ s ∈ ({ smallBus .shared with nodes := [probe .rxIdle] } : Bus).nodes, s.phase ≠ 6#4) ∧
      (smallBus .shared).nodes = [probe .rxIdle] ++ probe .txFrame :: [probe .rxIdle] ∧
      (∀ u ∈ [probe .rxIdle] ++ [probe .rxIdle], u.phase ≠ 6#4) ∧
      2 ≤ ((smallBus .shared).nodes.countP fun s => s.phase = 6#4) + 1 := by decide
/-- 60_exceptions.md R157: a node that sends while the requester drives sees the free draw. -/
theorem test_contention_seen_by_sender :
    (smallBus .shared).rxLevel ⟨true, 0#1⟩ 1 = Config.freeContention 0 1 := rfl
theorem witness_BusNodesStepIndependently :
    (∃ b', (smallBus .shared).step ⟨false, 0#1⟩ = .next b') ∧
      (smallBus .shared).nodes[2]? = some (probe .rxIdle) :=
  ⟨⟨_, rfl⟩, rfl⟩
theorem witness_BusOfInvariantNodesCompletesItsEdge :
    ∀ s ∈ ({ smallBus .shared with nodes := [frameBegun 0x41#8 0] } : Bus).nodes, s.cfg.Legal ∧ s.Inv := by
  intro s hs
  obtain rfl := List.mem_singleton.mp hs
  exact ⟨by decide, inv_frameBegun⟩

end Sys2Proof.Tests
end

/-! # Proofs: configuration and inputs (spec/00_scope.md R6, R7, R8, R27) -/

namespace Sys2Proof.Proofs

open Sys2Proof.Machine Sys2Proof.Laws

/-! ## Legality, parameter by parameter -/

theorem maxCount_lt_iff (c : Config) (n : Nat) :
    c.maxCount < n ↔
      c.bitCycles + c.bitCycles / 2 - 1 < n ∧ c.longCycles - 1 < n ∧ c.shortCycles - 1 < n := by
  simp only [Config.maxCount, max_lt_iff]

theorem maxIndex_lt_iff (s : State) (n : Nat) :
    s.cfg.maxIndex < n ↔ msgLen s .banner - 1 < n ∧ msgLen s .reply - 1 < n := by
  simp only [Config.maxIndex, max_lt_iff, msgLen_eq]

theorem zero_notMem_iff (text : List Byte) : 0#8 ∉ text ↔ ∀ b ∈ text, b ≠ 0#8 :=
  ⟨fun h _ hb => ne_of_mem_of_not_mem hb h, fun h h0 => h _ h0 rfl⟩

/-- R6 written out: the widths bound each delay and each message index by itself. -/
theorem legal_iff_parameters (s : State) : s.cfg.Legal ↔
    s.cfg.bitCycles % 2 = 0 ∧ 2 ≤ s.cfg.bitCycles ∧ 1 ≤ s.cfg.shortCycles ∧
      s.cfg.shortCycles < s.cfg.longCycles ∧ s.cfg.banner ≠ [] ∧
      (∀ b ∈ s.cfg.banner, b ≠ 0#8) ∧ (∀ b ∈ s.cfg.replyPrefix, b ≠ 0#8) ∧
      s.cfg.bitCycles + s.cfg.bitCycles / 2 - 1 < 2 ^ s.cfg.cntWidth ∧
      s.cfg.longCycles - 1 < 2 ^ s.cfg.cntWidth ∧ s.cfg.shortCycles - 1 < 2 ^ s.cfg.cntWidth ∧
      msgLen s .banner - 1 < 2 ^ s.cfg.idxWidth ∧ msgLen s .reply - 1 < 2 ^ s.cfg.idxWidth := by
  simp only [legal_iff, maxCount_lt_iff, maxIndex_lt_iff, zero_notMem_iff, and_assoc]

/-! ## Completion: under a legal configuration every meaning answers a next state (R150) -/

theorem countStep_completes (s : State) {done : Result} (h : ∃ t, done = .next t) :
    ∃ t, countStep s done = .next t := by
  by_cases hc : s.cnt = 0
  · rwa [countStep_done _ hc]
  · exact ⟨_, countStep_counting _ hc⟩

theorem loadMsgByte_completes {s : State} {sel : MsgSel} {i : Nat} (h : i < msgLen s sel) :
    ∃ t, loadMsgByte sel i s = .next t := by
  obtain ⟨b, hb⟩ := msgByte_eq_some h
  exact ⟨_, loadMsgByte_some hb⟩

/-- Both messages have a first byte: the banner is not empty, the reply echoes an address (R41). -/
theorem startMessage_completes {s : State} (hl : s.cfg.Legal) (sel : MsgSel) :
    ∃ t, startMessage sel s = .next t := by
  refine loadMsgByte_completes ?_
  cases sel with
  | banner => exact banner_length hl
  | reply => exact Nat.lt_of_lt_of_le Nat.zero_lt_two (reply_length _)

theorem execRxIdle_completes (s : State) : ∃ t, execRxIdle s = .next t := by
  unfold execRxIdle
  split <;> exact ⟨_, rfl⟩

theorem endFrame_completes (s : State) : ∃ t, endFrame s = .next t := by
  unfold endFrame
  split
  · next hi => exact loadMsgByte_completes hi
  · split <;> exact ⟨_, rfl⟩

theorem exec_completes (i : Instr) {s : State} (hl : s.cfg.Legal) : ∃ t, exec i s = .next t := by
  cases i with
  | start => exact startMessage_completes hl .banner
  | rxIdle => exact execRxIdle_completes s
  | rxData => exact countStep_completes s (by split <;> exact ⟨_, rfl⟩)
  | rxStop => exact countStep_completes s ⟨_, rfl⟩
  | pulseLongOn => exact countStep_completes s ⟨_, rfl⟩
  | pulseLongOff =>
    refine countStep_completes s ?_
    split
    · exact startMessage_completes hl .reply
    · exact ⟨_, rfl⟩
  | txFrame =>
    refine countStep_completes s ?_
    split
    · exact ⟨_, rfl⟩
    · exact endFrame_completes s
  | pulseShortOn => exact countStep_completes s ⟨_, rfl⟩
  | pulseShortOff => exact countStep_completes s (by split <;> exact ⟨_, rfl⟩)

/-! ## Refusals -/

/-- An illegal configuration is refused at every edge, reset edges included (R7; log entry 11). -/
theorem step_of_flaw {s : State} {reason : ConfigFlaw} (h : s.cfg.flaw = some reason) :
    step s = .refused (.refuseConfig reason) := by
  simp [step, h]

/-- Under a legal configuration no edge is refused: at reset and power-up edges no meaning runs, and at
a live edge the meaning completes or the phase code is reserved. -/
theorem step_ne_refused {s : State} (hl : s.cfg.Legal) (r : Refusal) : step s ≠ .refused r := by
  unfold step
  rw [hl]
  dsimp only
  split
  · exact nofun
  · split
    · exact nofun
    · split
      · exact nofun
      · next i _ =>
        obtain ⟨u, hu⟩ := exec_completes i hl
        rw [hu]
        exact nofun

/-- What a step refuses with is the flaw of the configuration, and nothing else is refused (R7, R152). -/
theorem step_refused_iff (s : State) (r : Refusal) :
    step s = .refused r ↔ ∃ reason, s.cfg.flaw = some reason ∧ r = .refuseConfig reason := by
  constructor
  · intro h
    cases hf : s.cfg.flaw with
    | none => exact absurd h (step_ne_refused hf r)
    | some reason =>
      rw [step_of_flaw hf] at h
      injection h with h
      exact ⟨reason, rfl, h.symm⟩
  · rintro ⟨reason, hf, rfl⟩
    exact step_of_flaw hf

theorem step_refuses_iff_not_legal (s : State) : (∃ r, step s = .refused r) ↔ ¬ s.cfg.Legal := by
  simp [step_refused_iff, Config.Legal, Option.ne_none_iff_exists']

/-- Settles O1: a refusal carries the configuration's flaw, and legality is R6 written out. -/
theorem exactlyIllegalConfigurationsAreRefused :
    Obligations.ExactlyIllegalConfigurationsAreRefused := by
  intro s
  refine ⟨fun r h => ?_, ?_⟩
  · obtain ⟨reason, _, hr⟩ := (step_refused_iff s r).mp h
    exact ⟨reason, hr⟩
  · rw [step_refuses_iff_not_legal, legal_iff_parameters]

/-! ## What every edge keeps -/

/-- Every completed edge, reset and power-up edges included, first writes registers or the power-up mark
alone, and then moves the inputs on. -/
theorem step_eq_nextEdge {s t : State} (h : step s = .next t) :
    ∃ u, t = nextEdge u ∧ u.cfg = s.cfg ∧ u.rst = s.rst ∧ u.rxIn = s.rxIn ∧ u.stim = s.stim ∧
      u.edge = s.edge ∧ u.place = s.place := by
  obtain ⟨_, ⟨_, rfl⟩ | ⟨_, _, rfl⟩ | ⟨_, _, i, u, _, hu, rfl⟩⟩ := step_cases h
  · exact ⟨applyReset s, by simp⟩
  · exact ⟨powerUpEdge s, by simp⟩
  · obtain ⟨hc, _, henv⟩ := exec_keeps_environment hu
    exact ⟨u, rfl, hc, henv⟩

/-- Settles O7: the inputs before an edge decide those after it, and ending the edge drops the first. -/
theorem eachEdgeConsumesOneInput : Obligations.EachEdgeConsumesOneInput := by
  intro s t h
  obtain ⟨u, rfl, _, hrst, hrx, hstim, hedge, hplace⟩ := step_eq_nextEdge h
  refine ⟨by simp [hedge], fun j => ?_⟩
  rw [inputAt_nextEdge, inputAt_congr hrst hrx hstim hedge hplace]

/-- Settles O8: neither the edge's writes nor the inputs' moving on touch the configuration. -/
theorem configurationNeverChanges : Obligations.ConfigurationNeverChanges := by
  intro s t h
  obtain ⟨u, rfl, hc, _⟩ := step_eq_nextEdge h
  rw [nextEdge_cfg, hc]

end Sys2Proof.Proofs

/-! # Proofs: the state and its invariant (spec/10_state.md R25, R26, R29 to R35, R43, R117, R140) -/

namespace Sys2Proof.Proofs

open Sys2Proof.Machine Sys2Proof.Laws

/-! ## The three kinds of edge, read forward -/

theorem step_reset {s : State} (hl : s.cfg.Legal) (hr : s.rst = 1#1) :
    step s = .next (nextEdge (applyReset s)) := by
  simp [step, hl, hr]

theorem step_unreset {s : State} (hl : s.cfg.Legal) (hp : s.power = .unreset) (hr : s.rst = 0#1) :
    step s = .next (nextEdge (powerUpEdge s)) := by
  simp [step, hl, hp, hr]

/-- A live edge of one of the nine phases completes. -/
theorem step_phase_completes {s : State} {i : Instr} (hs : s.Live) (hi : s.phase = encode i) :
    ∃ u, exec i s = .next u ∧ step s = .next (nextEdge u) := by
  obtain ⟨u, hu⟩ := exec_completes i hs.1
  exact ⟨u, hu, step_phase hs hi hu⟩

/-- Settles O4: an edge of the power-up interval writes one draw, and its end writes no register. -/
theorem powerUpRegistersAreFreeDraws : Obligations.PowerUpRegistersAreFreeDraws := by
  intro s hl hp hr
  exact ⟨_, step_unreset hl hp hr, hp, rfl, rfl⟩

/-- Settles O6: a live step is the meaning with its edge finished, and a stop is finished as it is. -/
theorem stepRunsTheDecodedPhase : Obligations.StepRunsTheDecodedPhase := by
  intro s i hs hi
  rw [step_live hs hi]
  refine ⟨fun u hu => ?_, fun f hf => ?_, fun r hr => ?_⟩
  · rw [hu, finishEdge]
  · rw [hf, finishEdge]
  · rw [hr, finishEdge]

/-- Two phases never share a code (R64). -/
theorem encode_injective {i j : Instr} (h : encode i = encode j) : i = j := by
  have hi : decode (encode j) = .ok i := (decode_eq_ok_iff _ i).mpr h.symm
  rw [(decode_eq_ok_iff _ j).mpr rfl] at hi
  injection hi with hi
  exact hi.symm

/-! ## A placed word (log entry 4) -/

theorem decodeTableWord_eq_some_iff (nbits w : Nat) (i : Instr) :
    decodeTableWord nbits w = some i ↔ decode (tableWordCode nbits w) = .ok i := by
  unfold decodeTableWord
  cases decode (tableWordCode nbits w) <;> simp

theorem live_withFetchWord {s : State} (hl : s.cfg.Legal) (nbits w : Nat) :
    (s.withFetchWord nbits w).Live :=
  ⟨hl, rfl, rfl⟩

/-- Settles O12: the placed word makes the edge live, and its phase completes. -/
theorem placedWordIsTheNextPhaseRun : Obligations.PlacedWordIsTheNextPhaseRun := by
  intro s nbits w i hl hw
  have hd : decode (tableWordCode nbits w) = .ok i := (decodeTableWord_eq_some_iff nbits w i).mp hw
  exact step_phase_completes (live_withFetchWord hl nbits w) ((decode_eq_ok_iff _ i).mp hd)

/-! ## Frame of the nine phases (R29) -/

/-- Settles O27: the environment is kept by every phase; the registers, outcome by outcome. -/
theorem phasesWriteOnlyTheirFields : Obligations.PhasesWriteOnlyTheirFields := by
  intro i s t h
  refine ⟨exec_keeps_environment h, ?_⟩
  cases i with
  | start => obtain ⟨b, _, rfl⟩ := execStart_cases h; simp
  | rxIdle => rcases execRxIdle_cases h with ⟨_, rfl⟩ | ⟨_, rfl⟩ <;> simp
  | rxData => rcases execRxData_cases h with ⟨_, rfl⟩ | ⟨_, _, rfl⟩ | ⟨_, _, rfl⟩ <;> simp
  | rxStop => rcases execRxStop_cases h with ⟨_, rfl⟩ | ⟨_, rfl⟩ <;> simp
  | pulseLongOn => rcases execPulseLongOn_cases h with ⟨_, rfl⟩ | ⟨_, rfl⟩ <;> simp
  | pulseLongOff =>
    rcases execPulseLongOff_cases h with ⟨_, rfl⟩ | ⟨_, _, b, _, rfl⟩ | ⟨_, _, rfl⟩ <;> simp
  | txFrame =>
    rcases execTxFrame_cases h with ⟨_, rfl⟩ | ⟨_, _, rfl⟩ | ⟨_, _, he⟩
    · simp
    · simp
    · rcases endFrame_cases he with ⟨_, b, _, rfl⟩ | ⟨_, _, rfl⟩ | ⟨_, _, rfl⟩ <;> simp
  | pulseShortOn => rcases execPulseShortOn_cases h with ⟨_, rfl⟩ | ⟨_, rfl⟩ <;> simp
  | pulseShortOff =>
    rcases execPulseShortOff_cases h with ⟨_, rfl⟩ | ⟨_, _, rfl⟩ | ⟨_, _, rfl⟩ <;> simp

/-! ## The state machine (R25, R130) -/

/-- The moves between phases (R130). -/
def phaseMoves : List (Instr × Instr) :=
  [(.start, .txFrame), (.txFrame, .rxIdle), (.rxIdle, .rxData), (.rxData, .rxStop),
   (.rxStop, .pulseLongOn), (.pulseLongOn, .pulseLongOff), (.pulseLongOff, .rxIdle),
   (.pulseLongOff, .txFrame), (.txFrame, .pulseShortOn), (.pulseShortOn, .pulseShortOff),
   (.pulseShortOff, .pulseShortOn), (.pulseShortOff, .rxIdle)]

/-- A meaning holds the phase or makes one of the moves. -/
theorem exec_holds_or_moves {i : Instr} {s u : State} (h : exec i s = .next u) :
    u.phase = s.phase ∨ ∃ j, (i, j) ∈ phaseMoves ∧ u.phase = encode j := by
  cases i with
  | start =>
    obtain ⟨b, _, rfl⟩ := execStart_cases h
    exact .inr ⟨.txFrame, by decide, rfl⟩
  | rxIdle =>
    rcases execRxIdle_cases h with ⟨_, rfl⟩ | ⟨_, rfl⟩
    · exact .inr ⟨.rxData, by decide, rfl⟩
    · exact .inl rfl
  | rxData =>
    rcases execRxData_cases h with ⟨_, rfl⟩ | ⟨_, _, rfl⟩ | ⟨_, _, rfl⟩
    · exact .inl rfl
    · exact .inr ⟨.rxStop, by decide, rfl⟩
    · exact .inl rfl
  | rxStop =>
    rcases execRxStop_cases h with ⟨_, rfl⟩ | ⟨_, rfl⟩
    · exact .inl rfl
    · exact .inr ⟨.pulseLongOn, by decide, rfl⟩
  | pulseLongOn =>
    rcases execPulseLongOn_cases h with ⟨_, rfl⟩ | ⟨_, rfl⟩
    · exact .inl rfl
    · exact .inr ⟨.pulseLongOff, by decide, rfl⟩
  | pulseLongOff =>
    rcases execPulseLongOff_cases h with ⟨_, rfl⟩ | ⟨_, _, b, _, rfl⟩ | ⟨_, _, rfl⟩
    · exact .inl rfl
    · exact .inr ⟨.txFrame, by decide, rfl⟩
    · exact .inr ⟨.rxIdle, by decide, rfl⟩
  | txFrame =>
    rcases execTxFrame_cases h with ⟨_, rfl⟩ | ⟨_, _, rfl⟩ | ⟨_, _, he⟩
    · exact .inl rfl
    · exact .inl rfl
    · rcases endFrame_cases he with ⟨_, b, _, rfl⟩ | ⟨_, _, rfl⟩ | ⟨_, _, rfl⟩
      · exact .inl rfl
      · exact .inr ⟨.rxIdle, by decide, rfl⟩
      · exact .inr ⟨.pulseShortOn, by decide, rfl⟩
  | pulseShortOn =>
    rcases execPulseShortOn_cases h with ⟨_, rfl⟩ | ⟨_, rfl⟩
    · exact .inl rfl
    · exact .inr ⟨.pulseShortOff, by decide, rfl⟩
  | pulseShortOff =>
    rcases execPulseShortOff_cases h with ⟨_, rfl⟩ | ⟨_, _, rfl⟩ | ⟨_, _, rfl⟩
    · exact .inl rfl
    · exact .inr ⟨.rxIdle, by decide, rfl⟩
    · exact .inr ⟨.pulseShortOn, by decide, rfl⟩

/-- Settles O30: the twelve pairs are the codes of the moves, and ending an edge writes no phase. -/
theorem phasesFollowTheStateMachine : Obligations.PhasesFollowTheStateMachine := by
  intro s t hs h hne
  obtain ⟨i, u, hi, hu, rfl⟩ := step_of_live hs h
  rcases exec_holds_or_moves hu with hheld | ⟨j, hmove, hj⟩
  · exact absurd hheld hne
  · rw [hi, nextEdge_toRegs, hj]
    exact List.mem_map_of_mem (f := Prod.map encode encode) hmove

/-! ## The invariant, phase by phase (R32) -/

/-- What the invariant says of a state in phase i after reset. -/
structure InvAt (i : Instr) (s : State) : Prop where
  slot : s.txSlot ≤ 10#4
  index : s.msgIdx < msgLen s s.msgSel
  phase : s.phase = encode i
  count : s.cnt ≤ cntBound s.cfg i
  status : s.statusOut = statusLevel i
  line : i ≠ .txFrame → s.txOut = 0#1
  sending : i = .txFrame → s.txOut = slotLevel s.txByte s.txSlot ∧
    msgByte s s.msgSel s.msgIdx = some s.txByte ∧ (s.msgSel = .reply → s.addr = s.cfg.nodeId)

theorem inv_iff (s : State) : s.Inv ↔ (s.power = .up → ∃ i, InvAt i s) := by
  constructor
  · intro h hp
    obtain ⟨hslot, hidx, i, hi, hcnt, hstatus, hline, hsend⟩ := h hp
    exact ⟨i, hslot, hidx, hi, hcnt, hstatus, hline, hsend⟩
  · intro h hp
    obtain ⟨i, hslot, hidx, hi, hcnt, hstatus, hline, hsend⟩ := h hp
    exact ⟨hslot, hidx, i, hi, hcnt, hstatus, hline, hsend⟩

/-- The invariant reads neither the input ports nor the draw number, so ending an edge keeps it. -/
theorem inv_nextEdge (s : State) : (nextEdge s).Inv ↔ s.Inv := Iff.rfl

theorem inv_onBus (k : Nat) (v : Bit) (s : State) : (s.onBus k v).Inv ↔ s.Inv := Iff.rfl

/-- `RESET_STATE` meets the invariant in START: a legal banner has a first byte (R30, R41). -/
theorem invAt_reset {s : State} (hl : s.cfg.Legal) (hr : s.toRegs = Regs.reset) : InvAt .start s where
  slot := by rw [hr]; decide
  index := by rw [hr]; exact banner_length hl
  phase := by rw [hr]; rfl
  count := by rw [hr]; exact Nat.le_refl 0
  status := by rw [hr]; rfl
  line := fun _ => by rw [hr]; rfl
  sending := nofun

/-- Settles O34: both reset states hold `RESET_STATE` under a legal configuration. -/
theorem invariantHoldsAtReset : Obligations.InvariantHoldsAtReset := by
  have h (c : Config) (hl : c.Legal) : (State.resetOf c).Inv :=
    (inv_iff _).mpr fun _ => ⟨.start, invAt_reset hl rfl⟩
  exact ⟨h Config.vectorD (by decide), h⟩

/-- Settles O3: both reset states hold `RESET_STATE`. -/
theorem resetStateHoldsTheSpecifiedValues : Obligations.ResetStateHoldsTheSpecifiedValues := by
  intro c s hs
  have hr : s.toRegs = Regs.reset := by
    rcases List.mem_pair.mp hs with rfl | rfl <;> rfl
  rw [hr]
  decide

/-- Settles O32: the invariant bounds `tx_slot` by 10 and `msg_idx` by the message's last index. -/
theorem conditionsMatchTheRulesTests : Obligations.ConditionsMatchTheRulesTests := by
  intro s hinv hp _
  obtain ⟨hslot, hidx, _⟩ := hinv hp
  constructor
  · rw [frameEnd, beq_iff_eq]
    bv_omega
  · rw [msgLast, beq_iff_eq]
    omega

/-! ## What each operation keeps of the invariant -/

/-- Counting down stays within the phase's bound and writes nothing else. -/
theorem InvAt.counting {i : Instr} {s : State} (hs : InvAt i s) :
    InvAt i { s with cnt := s.cnt - 1 } where
  __ := hs
  count := (Nat.sub_le _ _).trans hs.count

/-- What the invariant reads outside TX_FRAME, besides the phase, its counter and the indicator. -/
def TransmitterKept (s t : State) : Prop :=
  (t.cfg, t.txSlot, t.msgSel, t.msgIdx, t.txOut) = (s.cfg, s.txSlot, s.msgSel, s.msgIdx, s.txOut)

/-- A phase other than TX_FRAME is entered, or held, with the transmitter at rest: then only the phase,
its counter and its indicator level are to be checked. -/
theorem InvAt.atRest {i j : Instr} {s t : State} (hs : InvAt i s) (hidle : s.txOut = 0#1)
    (hj : j ≠ .txFrame) (hkept : TransmitterKept s t) (hphase : t.phase = encode j)
    (hcnt : t.cnt ≤ cntBound t.cfg j) (hstatus : t.statusOut = statusLevel j) : InvAt j t := by
  simp only [TransmitterKept, Prod.mk.injEq] at hkept
  obtain ⟨hcfg, hslot, hsel, hidx, hout⟩ := hkept
  refine ⟨hslot ▸ hs.slot, ?_, hphase, hcnt, hstatus, fun _ => hout.trans hidle, fun h => absurd h hj⟩
  rw [msgLen_eq, hidx, hsel, hcfg, ← msgLen_eq]
  exact hs.index

/-- Loading a frame in TX_FRAME: slot 0 of a byte of the message goes on the line (R110). -/
theorem invAt_loadFrame {s : State} {b : Byte} (hphase : s.phase = encode .txFrame)
    (hb : msgByte s s.msgSel s.msgIdx = some b) (hstatus : s.statusOut = 1#1)
    (haddr : s.msgSel = .reply → s.addr = s.cfg.nodeId) : InvAt .txFrame (loadFrame b s) where
  slot := (by decide : 0#4 ≤ 10#4)
  index := (msgByte_isSome_iff s s.msgSel s.msgIdx).mp (Option.isSome_of_eq_some hb)
  phase := hphase
  count := Nat.le_refl _
  status := hstatus
  line := fun h => absurd rfl h
  sending := fun _ => ⟨rfl, hb, haddr⟩

/-- The next slot of a frame: its level goes on the line (R112). -/
theorem InvAt.nextSlot {s : State} (hs : InvAt .txFrame s) (hslot : s.txSlot < 10#4) :
    InvAt .txFrame (nextSlot s) where
  __ := hs
  slot := by
    rw [nextSlot_toRegs]
    bv_omega
  count := Nat.le_refl _
  line := fun h => absurd rfl h
  sending := fun h => ⟨rfl, (hs.sending h).2⟩

/-- In the last slot the line is IDLE already: it is the gap (R60). -/
theorem InvAt.idle_of_last_slot {s : State} (hs : InvAt .txFrame s) (hslot : ¬ s.txSlot < 10#4) :
    s.txOut = 0#1 := by
  obtain ⟨hout, _⟩ := hs.sending rfl
  rw [hout]
  exact slotLevel_idle _ _ (by bv_omega)

/-! ## Every meaning and every step keep the invariant -/

/-- The frame's end: the next byte of the message, or a phase that leaves the line at rest (R115). -/
theorem endFrame_keeps_inv {s u : State} (hs : InvAt .txFrame s) (h0 : s.cnt = 0)
    (hslot : ¬ s.txSlot < 10#4) (hu : endFrame s = .next u) : ∃ j, InvAt j u := by
  have hidle := hs.idle_of_last_slot hslot
  rcases endFrame_cases hu with ⟨_, b, hb, rfl⟩ | ⟨_, _, rfl⟩ | ⟨_, _, rfl⟩
  · obtain ⟨_, _, haddr⟩ := hs.sending rfl
    exact ⟨_, invAt_loadFrame hs.phase hb hs.status haddr⟩
  · exact ⟨.rxIdle, hs.atRest hidle nofun rfl rfl h0.le hs.status⟩
  · exact ⟨.pulseShortOn, hs.atRest hidle nofun rfl rfl (Nat.le_refl _) rfl⟩

theorem exec_keeps_inv {i : Instr} {s u : State} (hs : InvAt i s) (hu : exec i s = .next u) :
    ∃ j, InvAt j u := by
  cases i with
  | start =>
    obtain ⟨b, hb, rfl⟩ := execStart_cases hu
    exact ⟨_, invAt_loadFrame rfl hb hs.status nofun⟩
  | rxIdle =>
    rcases execRxIdle_cases hu with ⟨_, rfl⟩ | ⟨_, rfl⟩
    · refine ⟨.rxData, hs.atRest (hs.line nofun) nofun rfl rfl ?_ hs.status⟩
      simp [cntBound, Nat.add_comm]
    · exact ⟨_, hs⟩
  | rxData =>
    rcases execRxData_cases hu with ⟨_, rfl⟩ | ⟨_, _, rfl⟩ | ⟨_, _, rfl⟩
    · exact ⟨_, hs.counting⟩
    · exact ⟨.rxStop, hs.atRest (hs.line nofun) nofun rfl rfl (Nat.le_refl _) hs.status⟩
    · refine ⟨.rxData, hs.atRest (hs.line nofun) nofun rfl hs.phase ?_ hs.status⟩
      simp only [cntBound, startDelay_toRegs, startDelay_cfg, takeSample_cfg]
      omega
  | rxStop =>
    rcases execRxStop_cases hu with ⟨_, rfl⟩ | ⟨_, rfl⟩
    · exact ⟨_, hs.counting⟩
    · exact ⟨.pulseLongOn, hs.atRest (hs.line nofun) nofun rfl rfl (Nat.le_refl _) rfl⟩
  | pulseLongOn =>
    rcases execPulseLongOn_cases hu with ⟨_, rfl⟩ | ⟨_, rfl⟩
    · exact ⟨_, hs.counting⟩
    · exact ⟨.pulseLongOff, hs.atRest (hs.line nofun) nofun rfl rfl (Nat.le_refl _) rfl⟩
  | pulseLongOff =>
    rcases execPulseLongOff_cases hu with ⟨_, rfl⟩ | ⟨_, haddr, b, hb, rfl⟩ | ⟨h0, _, rfl⟩
    · exact ⟨_, hs.counting⟩
    · exact ⟨_, invAt_loadFrame rfl hb hs.status fun _ => haddr⟩
    · exact ⟨.rxIdle, hs.atRest (hs.line nofun) nofun rfl rfl h0.le hs.status⟩
  | txFrame =>
    rcases execTxFrame_cases hu with ⟨_, rfl⟩ | ⟨_, hslot, rfl⟩ | ⟨h0, hslot, he⟩
    · exact ⟨_, hs.counting⟩
    · exact ⟨_, hs.nextSlot hslot⟩
    · exact endFrame_keeps_inv hs h0 hslot he
  | pulseShortOn =>
    rcases execPulseShortOn_cases hu with ⟨_, rfl⟩ | ⟨_, rfl⟩
    · exact ⟨_, hs.counting⟩
    · exact ⟨.pulseShortOff, hs.atRest (hs.line nofun) nofun rfl rfl (Nat.le_refl _) rfl⟩
  | pulseShortOff =>
    rcases execPulseShortOff_cases hu with ⟨_, rfl⟩ | ⟨h0, _, rfl⟩ | ⟨_, _, rfl⟩
    · exact ⟨_, hs.counting⟩
    · exact ⟨.rxIdle, hs.atRest (hs.line nofun) nofun rfl rfl h0.le hs.status⟩
    · exact ⟨.pulseShortOn, hs.atRest (hs.line nofun) nofun rfl rfl (Nat.le_refl _) rfl⟩

/-- Settles O33: a reset edge gives `RESET_STATE`, a power-up edge leaves the machine unreset, of which
the invariant says nothing, and at a live edge the meaning keeps it. -/
theorem everyStepKeepsTheInvariant : Obligations.EveryStepKeepsTheInvariant := by
  intro s t hs h
  obtain ⟨hl, ⟨_, rfl⟩ | ⟨_, hp, rfl⟩ | ⟨_, hp, i, u, hd, hu, rfl⟩⟩ := step_cases h
  · rw [inv_nextEdge, inv_iff]
    exact fun _ => ⟨.start, invAt_reset hl rfl⟩
  · rw [inv_nextEdge]
    intro hup
    rw [powerUpEdge_power, hp] at hup
    cases hup
  · rw [inv_nextEdge, inv_iff]
    intro _
    obtain ⟨j, hj⟩ := (inv_iff s).mp hs hp
    have hcode : encode j = encode i := hj.phase.symm.trans ((decode_eq_ok_iff _ i).mp hd)
    obtain rfl : j = i := encode_injective hcode
    exact exec_keeps_inv hj hu

/-! ## Progress -/

/-- Under the invariant no edge meets a fault or a refusal (R138, R152). -/
theorem step_completes_of_inv {s : State} (hl : s.cfg.Legal) (hs : s.Inv) : ∃ t, step s = .next t := by
  rcases bit_cases s.rst with hr | hr
  · cases hp : s.power with
    | unreset => exact ⟨_, step_unreset hl hp hr⟩
    | up =>
      obtain ⟨_, _, i, hi, _⟩ := hs hp
      obtain ⟨u, _, hstep⟩ := step_phase_completes ⟨hl, hp, hr⟩ hi
      exact ⟨_, hstep⟩
  · exact ⟨_, step_reset hl hr⟩

/-- Settles O53: the edge completes, no step writes the configuration, and every step keeps the
invariant. -/
theorem invariantStatesStepToInvariantStates : Obligations.InvariantStatesStepToInvariantStates := by
  intro s hl hs
  obtain ⟨t, ht⟩ := step_completes_of_inv hl hs
  have hcfg : t.cfg = s.cfg := configurationNeverChanges s t ht
  exact ⟨t, ht, hcfg ▸ hl, everyStepKeepsTheInvariant s t hs ht⟩

/-- The nodes of a bus, node after node, on any levels of their receive lines. -/
theorem stepNodes_completes_of_inv (level : Nat → Bit) (l : List State)
    (h : ∀ s ∈ l, s.cfg.Legal ∧ s.Inv) (k : Nat) :
    ∃ l', stepNodes level k l = .next l' ∧ ∀ t ∈ l', t.cfg.Legal ∧ t.Inv := by
  induction l generalizing k with
  | nil => exact ⟨[], rfl, nofun⟩
  | cons s l ih =>
    obtain ⟨⟨hl, hs⟩, hrest⟩ := List.forall_mem_cons.mp h
    obtain ⟨t, ht, hgood⟩ :=
      invariantStatesStepToInvariantStates (s.onBus k (level k)) hl ((inv_onBus k (level k) s).mpr hs)
    obtain ⟨ts, hts, hgoods⟩ := ih hrest (k + 1)
    exact ⟨t :: ts, stepNodes_cons.mpr ⟨t, ts, ht, hts, rfl⟩,
      List.forall_mem_cons.mpr ⟨hgood, hgoods⟩⟩

/-- Settles O54: the bus's edge is the nodes' edges, each of which completes. -/
theorem busOfInvariantNodesCompletesItsEdge : Obligations.BusOfInvariantNodesCompletesItsEdge := by
  intro b req h
  obtain ⟨ts, hts, hgood⟩ := stepNodes_completes_of_inv (b.rxLevel req) b.nodes h 0
  exact ⟨{ b with nodes := ts, edge := b.edge + 1 }, by rw [Bus.step, hts], hgood⟩

end Sys2Proof.Proofs

/-! # Proofs: the message texts (spec/20_memory.md R41, R42, R69, R119) -/

namespace Sys2Proof.Proofs

open Sys2Proof.Machine Sys2Proof.Laws

/-! ## A message's text, then what follows it -/

/-- Inside the banner's text the bytes are `BANNER`'s (R41). -/
theorem msgByte_banner_text {s : State} {i : Nat} (h : i < s.cfg.banner.length) :
    msgByte s .banner i = s.cfg.banner[i]? :=
  List.getElem?_append_left h

/-- After the banner's text comes the sentinel (R41, R114). -/
theorem msgByte_banner_after_text (s : State) (k : Nat) :
    msgByte s .banner (s.cfg.banner.length + k) = (sentinel s.cfg)[k]? := by
  simp [msgByte, msgSeq, List.getElem?_append_right]

/-- Inside the reply's fixed text the bytes are `REPLY_PREFIX`'s (R41). -/
theorem msgByte_reply_text {s : State} {i : Nat} (h : i < s.cfg.replyPrefix.length) :
    msgByte s .reply i = s.cfg.replyPrefix[i]? := by
  simp [msgByte, msgSeq, List.getElem?_append_left h]

/-- After the reply's fixed text come the address register, the line feed and the sentinel (R41, R119). -/
theorem msgByte_reply_after_text (s : State) (k : Nat) :
    msgByte s .reply (s.cfg.replyPrefix.length + k) =
      (s.addr :: lineFeed :: sentinel s.cfg)[k]? := by
  simp [msgByte, msgSeq, List.getElem?_append_right]

/-- The sentinel's byte is there exactly where the policy sends it (R41, R114). -/
theorem sentinel_getElem?_zero (c : Config) :
    (sentinel c)[0]? = if c.sendSentinel then some 0x00#8 else none := by
  unfold sentinel
  split <;> rfl

/-- The sentinel is at most one byte (R41). -/
theorem sentinel_length_le (c : Config) : (sentinel c).length ≤ 1 := by
  unfold sentinel
  split <;> simp

/-! ## Past a message's end -/

theorem msgByte_eq_none {s : State} {sel : MsgSel} {i : Nat} (h : msgLen s sel ≤ i) :
    msgByte s sel i = none :=
  List.getElem?_eq_none h

theorem msgLen_banner_le (s : State) : msgLen s .banner ≤ s.cfg.banner.length + 1 := by
  have := sentinel_length_le s.cfg
  simpa [msgLen, msgSeq] using this

theorem msgLen_reply_le (s : State) : msgLen s .reply ≤ s.cfg.replyPrefix.length + 3 := by
  have := sentinel_length_le s.cfg
  simp only [msgLen, msgSeq, List.length_append, List.length_singleton]
  omega

/-- Settles O15: the text's bytes, then the bytes appended to it one after another, then none. -/
theorem messageBytesByIndex : Obligations.MessageBytesByIndex := by
  intro s i
  refine ⟨msgByte_banner_text, ?bannerEnd, fun h => msgByte_eq_none ((msgLen_banner_le s).trans h),
    msgByte_reply_text, msgByte_reply_after_text s 0, msgByte_reply_after_text s 1, ?replyEnd,
    fun h => msgByte_eq_none ((msgLen_reply_le s).trans h)⟩
  case bannerEnd => exact (msgByte_banner_after_text s 0).trans (sentinel_getElem?_zero s.cfg)
  case replyEnd => exact (msgByte_reply_after_text s 2).trans (sentinel_getElem?_zero s.cfg)

/-- Settles O16: both lengths are R41's formula in the one configuration (R69). -/
theorem messageLengthIsFixedByConfiguration : Obligations.MessageLengthIsFixedByConfiguration := by
  intro s t sel hcfg
  have hlen : msgLen s sel = msgLen t sel := by rw [msgLen_eq, msgLen_eq, hcfg]
  exact ⟨hlen, reply_length s, banner_length⟩

end Sys2Proof.Proofs

/-! # Proofs: the encodings (spec/30_encoding.md R60 to R67, R71) and the fault of a reserved code -/

namespace Sys2Proof.Proofs

open Sys2Proof.Machine Sys2Proof.Laws

/-! ## Phase codes and opcode-table words (R64, R65, R71) -/

theorem decode_encode (i : Instr) : decode (encode i) = .ok i :=
  (decode_eq_ok_iff _ i).mpr rfl

/-- An opcode-table word is read through its bits 3..0 (R71). -/
@[simp] theorem tableWordCode_toNat (nbits w : Nat) :
    (tableWordCode nbits w).toNat = w % 2 ^ nbits % 16 :=
  BitVec.toNat_ofNat (w % 2 ^ nbits) 4

/-- Settles O11: a code decodes to a phase exactly when it is the phase's code, and the code in a table
word is the word's bits 3..0. -/
theorem decodeAndEncodeAgree : Obligations.DecodeAndEncodeAgree := by
  refine ⟨decode_encode, fun w i h => ((decode_eq_ok_iff w i).mp h).symm, fun nbits w i => ?_⟩
  rw [decodeTableWord_eq_some_iff, decode_eq_ok_iff, ← BitVec.toNat_inj, tableWordCode_toNat]

/-- The reserved codes are exactly those with no row in the table (R65, R71). -/
theorem phaseTable_find?_eq_none_iff (w : PhaseCode) :
    phaseTable.find? (fun r => w &&& r.mask == r.code) = none ↔ 9#4 ≤ w := by
  revert w
  decide

/-- Only the reserved codes are rejected, each by its own name (R65). -/
theorem decode_eq_error_iff (w : PhaseCode) (e : DecodeError) :
    decode w = .error e ↔ 9#4 ≤ w ∧ e = .reservedPhase w := by
  rw [← phaseTable_find?_eq_none_iff, decode]
  cases phaseTable.find? (fun r => w &&& r.mask == r.code) with
  | none => simp [eq_comm]
  | some r => simp

/-- Settles O10: the nine codes are those of `encode`, and the others have no row. -/
theorem phaseCodesDecodeAsTabled : Obligations.PhaseCodesDecodeAsTabled := by
  refine ⟨decode_encode .start, decode_encode .rxIdle, decode_encode .rxData,
    decode_encode .rxStop, decode_encode .pulseLongOn, decode_encode .pulseLongOff,
    decode_encode .txFrame, decode_encode .pulseShortOn, decode_encode .pulseShortOff, ?_⟩
  exact fun w hw => (decode_eq_error_iff w _).mpr ⟨hw, rfl⟩

/-! ## Faults (R65, R152) -/

/-- A refusal, a reset edge and a power-up edge are no faults: only a live edge can fault. -/
theorem live_of_step_fault {s : State} {f : Fault} (h : step s = .fault f) : s.Live := by
  cases hl : s.cfg.flaw with
  | some reason => rw [step_of_flaw hl] at h; cases h
  | none =>
    rcases bit_cases s.rst with hr | hr
    · cases hp : s.power with
      | unreset => rw [step_unreset hl hp hr] at h; cases h
      | up => exact ⟨hl, hp, hr⟩
    · rw [step_reset hl hr] at h; cases h

/-- A live edge whose phase code is rejected faults with the rejection. -/
theorem step_decode_error {s : State} {e : DecodeError} (hs : s.Live)
    (he : decode s.phase = .error e) : step s = .fault (decodeFault e) := by
  obtain ⟨hl, hp, hr⟩ := hs
  simp [step, hl, hp, hr, he]

/-- At a live edge a phase's meaning completes, so the fault is the decoder's. -/
theorem step_fault_iff_of_live {s : State} (hs : s.Live) (f : Fault) :
    step s = .fault f ↔ ∃ e, decode s.phase = .error e ∧ f = decodeFault e := by
  cases hd : decode s.phase with
  | ok i =>
    obtain ⟨u, _, hstep⟩ := step_phase_completes hs ((decode_eq_ok_iff _ i).mp hd)
    simp [hstep]
  | error e => simp [step_decode_error hs hd, eq_comm]

/-- Settles O5: only a live edge faults, and there exactly when the decoder rejects the code. -/
theorem faultsAreExactlyReservedPhases : Obligations.FaultsAreExactlyReservedPhases := by
  intro s f
  constructor
  · intro h
    have hs : s.Live := live_of_step_fault h
    obtain ⟨e, he, rfl⟩ := (step_fault_iff_of_live hs f).mp h
    obtain ⟨hres, rfl⟩ := (decode_eq_error_iff _ e).mp he
    exact ⟨hs, hres, rfl⟩
  · rintro ⟨hs, hres, rfl⟩
    exact step_decode_error hs ((decode_eq_error_iff _ _).mpr ⟨hres, rfl⟩)

/-! ## The frame on the line and the byte assembled from it (R60, R62, R63) -/

/-- A data bit 1 is IDLE on the line and a 0 is ACTIVE (R62). -/
theorem levelOfBit_bitAt (b : Byte) (k : Nat) :
    levelOfBit (bitAt b k) = if b.getLsbD k then 0#1 else 1#1 := by
  rw [bitAt_eq_ofBool]
  cases b.getLsbD k <;> rfl

/-- Settles O13: the start slot, the data slots and the two IDLE slots. -/
theorem frameSlotsCarryTheByte : Obligations.FrameSlotsCarryTheByte := by
  intro b
  refine ⟨slotLevel_start b, fun k hk => ?_, slotLevel_idle b _ (by decide),
    slotLevel_idle b _ (by decide)⟩
  rw [slotLevel_data b k hk, levelOfBit_bitAt]

/-- The byte x with its bits 0..n-1 written in order, bit k with v k (R91). -/
def writeBits (v : Nat → Bit) (x : Byte) (n : Nat) : Byte :=
  (List.range n).foldl (fun y k => setBit y (BitVec.ofNat 3 k) (v k)) x

theorem writeBits_succ (v : Nat → Bit) (x : Byte) (n : Nat) :
    writeBits v x (n + 1) = setBit (writeBits v x n) (BitVec.ofNat 3 n) (v n) := by
  simp [writeBits, List.range_succ]

/-- The n low bits are the written ones, and the others are kept. -/
theorem bitAt_writeBits (v : Nat → Bit) (x : Byte) {n j : Nat} (hn : n ≤ 8) (hj : j < 8) :
    bitAt (writeBits v x n) j = if j < n then v j else bitAt x j := by
  induction n with
  | zero => simp [writeBits]
  | succ n ih =>
    have hcode : (BitVec.ofNat 3 n).toNat = n := by
      rw [BitVec.toNat_ofNat]
      omega
    rw [writeBits_succ, bitAt_setBit _ _ _ _ hj, hcode, ih (by omega)]
    rcases Nat.lt_trichotomy j n with h | rfl | h
    · simp [h, h.ne, h.trans n.lt_succ_self]
    · simp
    · simp [h.ne', h.not_gt, Nat.not_lt.mpr h]

/-- Settles O14: after the eight writes every bit is the complement of its slot's level, which is the
complement of the byte's bit. -/
theorem byteAssemblyInvertsTheFrame : Obligations.ByteAssemblyInvertsTheFrame := by
  intro b x
  refine byte_ext fun k hk => ?_
  have hbit := bitAt_writeBits
    (fun k => bitOfLevel (slotLevel b (BitVec.ofNat 4 (k + 1)))) x le_rfl hk
  rw [if_pos hk, slotLevel_data b k hk, bitOfLevel_levelOfBit] at hbit
  exact hbit

/-! ## Entering TX_FRAME (R67, R133, R136) -/

/-- The moves into TX_FRAME come from START and from the long pulse's off phase (R130). -/
theorem source_of_move_to_txFrame {i : Instr} (h : (i, .txFrame) ∈ phaseMoves) :
    i = .start ∨ i = .pulseLongOff := by
  simpa [phaseMoves] using h

/-- A meaning that enters TX_FRAME begins the banner, or the reply to an address that matched. -/
theorem exec_enters_txFrame {i : Instr} {s u : State} (hu : exec i s = .next u)
    (hs : s.phase ≠ encode .txFrame) (htx : u.phase = encode .txFrame) :
    (i = .start ∧ u.msgSel = .banner) ∨
    (i = .pulseLongOff ∧ s.addr = s.cfg.nodeId ∧ u.msgSel = .reply) := by
  rcases exec_holds_or_moves hu with hheld | ⟨j, hmove, hj⟩
  · exact absurd (hheld.symm.trans htx) hs
  · obtain rfl : j = .txFrame := encode_injective (hj.symm.trans htx)
    rcases source_of_move_to_txFrame hmove with rfl | rfl
    · obtain ⟨b, _, rfl⟩ := execStart_cases hu
      exact .inl ⟨rfl, rfl⟩
    · rcases execPulseLongOff_cases hu with ⟨_, rfl⟩ | ⟨_, haddr, b, _, rfl⟩ | ⟨_, _, rfl⟩
      · exact absurd htx hs
      · exact .inr ⟨rfl, haddr, rfl⟩
      · have hcode : Instr.rxIdle = .txFrame := encode_injective htx
        cases hcode

/-- Settles O31: a live step that enters TX_FRAME is START's or the compare's at a match. -/
theorem onlyAMatchStartsAReply : Obligations.OnlyAMatchStartsAReply := by
  intro s t hs h hne htx
  obtain ⟨i, u, hi, hu, rfl⟩ := step_of_live hs h
  rcases exec_enters_txFrame hu hne htx with ⟨rfl, hsel⟩ | ⟨rfl, haddr, hsel⟩
  · exact .inl ⟨hi, hsel⟩
  · exact .inr ⟨hi, haddr, hsel⟩

end Sys2Proof.Proofs

/-! # Proofs: the Bit Timer (spec/40_bit_timer.md R81, R83) -/

namespace Sys2Proof.Proofs

open Sys2Proof.Machine Sys2Proof.Laws

/-! ## The counters fit their widths (R6, R83) -/

/-- The widest delay of a phase is one of the three `CNT_WIDTH` is sized for (R6, R83). -/
theorem cntBound_le_maxCount (c : Config) (i : Instr) : cntBound c i ≤ c.maxCount := by
  have hbit : c.bitCycles + halfCycles c - 1 ≤ c.maxCount := le_max_left _ _
  have hlong : c.longCycles - 1 ≤ c.maxCount := (le_max_left _ _).trans (le_max_right _ _)
  have hshort : c.shortCycles - 1 ≤ c.maxCount := (le_max_right _ _).trans (le_max_right _ _)
  cases i with
  | start | rxIdle => exact Nat.zero_le _
  | rxData | rxStop => exact hbit
  | txFrame => exact (Nat.sub_le_sub_right (Nat.le_add_right _ _) 1).trans hbit
  | pulseLongOn | pulseLongOff => exact hlong
  | pulseShortOn | pulseShortOff => exact hshort

/-- An index inside a message is one `IDX_WIDTH` is sized for (R6). -/
theorem index_le_maxIndex {s : State} {sel : MsgSel} {i : Nat} (h : i < msgLen s sel) :
    i ≤ s.cfg.maxIndex := by
  rw [msgLen_eq] at h
  refine (Nat.le_sub_one_of_lt h).trans ?_
  cases sel with
  | banner => exact le_max_left _ _
  | reply => exact le_max_right _ _

/-- Settles O35: the invariant bounds `cnt` by the phase's delay and `msg_idx` by the message, and a
legal configuration's widths hold the largest of either. -/
theorem countersFitTheirWidths : Obligations.CountersFitTheirWidths := by
  intro s hl hp hinv
  obtain ⟨i, hs⟩ := (inv_iff s).mp hinv hp
  obtain ⟨_, _, _, _, _, _, _, hcntWidth, hidxWidth⟩ := (legal_iff s.cfg).mp hl
  exact ⟨(hs.count.trans (cntBound_le_maxCount s.cfg i)).trans_lt hcntWidth,
    (index_le_maxIndex hs.index).trans_lt hidxWidth⟩

/-! ## Counting over several edges (R81) -/

/-- A timed phase counts down as long as `cnt` lasts: every edge leads to a state that counts on, since
nothing but `cnt` was written. -/
theorem after_counting {s : State} {i : Instr} (hi : s.phase = encode i) (hstart : i ≠ .start)
    (hidle : i ≠ .rxIdle) {k : Nat} (hk : k ≤ s.cnt) (hs : s.LiveFor k) :
    After k s { s.toRegs with cnt := s.cnt - k } := by
  induction k with
  | zero => exact after_zero hs.2.1
  | succ k ih =>
    refine after_trans (ih (Nat.le_of_succ_le hk) (liveFor_mono hs k.le_succ)) ?_
    intro t hregs hcfg hp hinputs
    have hphase : t.phase = encode i := by rw [hregs, hi]
    have hcnt : t.cnt = s.cnt - k := by rw [hregs]
    have hlive : t.Live := live_of_liveFor (liveFor_after hs hcfg hp hinputs)
    have hedge := after_exec hlive hphase (exec_counting hstart hidle (by omega))
    rwa [hcnt, hregs] at hedge

/-- Settles O38: k edges of counting, in any timed phase. -/
theorem delaysCountExactly : Obligations.DelaysCountExactly :=
  fun _ _ _ hi hstart hidle hk hs => after_counting hi hstart hidle hk hs

end Sys2Proof.Proofs

/-! # Proofs: the Frame Receiver (spec/41_receiver.md R90 to R99) -/

namespace Sys2Proof.Proofs

open Sys2Proof.Machine Sys2Proof.Laws

/-! ## The receiver's phases, read forward (R90, R91, R92) -/

/-- An ACTIVE sample is the detection edge (R90). -/
theorem execRxIdle_active {s : State} (h : s.rxIn = 1#1) :
    execRxIdle s = .next (startDelay (halfCycles s.cfg + s.cfg.bitCycles)
      (goto .rxData { s with rxShift := 0x00#8, rxBit := 0#3 })) :=
  if_pos h

/-- An IDLE sample writes nothing (R90, R97). -/
theorem execRxIdle_idle {s : State} (h : s.rxIn = 0#1) : execRxIdle s = .next s :=
  if_neg (by rw [h]; decide)

/-- The sample of bit 7 ends the data bits (R91). -/
theorem execRxData_last {s : State} (h0 : s.cnt = 0) (hbit : s.rxBit = 7#3) :
    execRxData s =
      .next (startDelay (s.cfg.bitCycles + halfCycles s.cfg) (goto .rxStop (takeSample s))) := by
  rw [execRxData, countStep_done _ h0, if_pos (by simpa [rxLast] using hbit)]

/-- The sample of an earlier bit goes on to the next one (R91). -/
theorem execRxData_earlier {s : State} (h0 : s.cnt = 0) (hbit : s.rxBit ≠ 7#3) :
    execRxData s =
      .next (startDelay s.cfg.bitCycles { takeSample s with rxBit := s.rxBit + 1#3 }) := by
  rw [execRxData, countStep_done _ h0, if_neg (by simpa [rxLast] using hbit)]

/-- The end of the stop bit's delay delivers the byte (R92). -/
theorem execRxStop_delivers {s : State} (h0 : s.cnt = 0) :
    execRxStop s = .next (startDelay s.cfg.longCycles
      (setStatus 0#1 (goto .pulseLongOn { s with addr := s.rxShift }))) :=
  countStep_done _ h0

/-- Settles O18: the two levels of `rx_in`. -/
theorem rxIdleDetectsOrWaits : Obligations.RxIdleDetectsOrWaits :=
  fun _ => ⟨execRxIdle_active, execRxIdle_idle⟩

/-- Settles O20: counting, and the delivery at 0. -/
theorem rxStopDeliversTheByte : Obligations.RxStopDeliversTheByte :=
  fun _ => ⟨countStep_counting _, execRxStop_delivers⟩

/-! ## One sample (R62, R91) -/

theorem getLsbD_eq_bitAt (b : Byte) (k : Nat) : b.getLsbD k = (bitAt b k).getLsbD 0 := by
  simp [bitAt]

/-- A sampled data bit is 1 exactly at an IDLE level (R62). -/
theorem getLsbD_bitOfLevel (x : Bit) : (bitOfLevel x).getLsbD 0 = decide (x = 0#1) := by
  revert x; decide

/-- Settles O19: the bits of the written byte, then the two ways an edge at `cnt = 0` ends. -/
theorem rxDataCountsAndSamples : Obligations.RxDataCountsAndSamples := by
  intro s
  refine ⟨countStep_counting _, fun h0 => ⟨(takeSample s).rxShift, fun j hj => ?_,
    execRxData_last h0, fun hbit => ⟨s.rxBit + 1#3, by bv_omega, execRxData_earlier h0 hbit⟩⟩⟩
  rw [takeSample_toRegs, getLsbD_setBit _ _ _ _ hj, getLsbD_bitOfLevel]

/-! ## Who reads the line and who writes `addr` (R98, R99) -/

/-- Counting does not read the line, so only the completion action is to be checked. -/
theorem countStep_of_other_rx {s t : State} {x : Bit} {done done' : Result}
    (hdone : done = .next t → done' = .next { t with rxIn := x })
    (h : countStep s done = .next t) :
    countStep { s with rxIn := x } done' = .next { t with rxIn := x } := by
  rcases countStep_cases h with ⟨hc, rfl⟩ | ⟨h0, hd⟩
  · exact countStep_counting _ hc
  · exact (countStep_done (s := { s with rxIn := x }) done' h0).trans (hdone hd)

theorem loadMsgByte_of_other_rx {s t : State} {sel : MsgSel} {i : Nat} {x : Bit}
    (h : loadMsgByte sel i s = .next t) :
    loadMsgByte sel i { s with rxIn := x } = .next { t with rxIn := x } := by
  obtain ⟨b, hb, rfl⟩ := loadMsgByte_cases h
  exact loadMsgByte_some hb

theorem endFrame_of_other_rx {s t : State} {x : Bit} (h : endFrame s = .next t) :
    endFrame { s with rxIn := x } = .next { t with rxIn := x } := by
  unfold endFrame at h ⊢
  split at h
  · next hi => exact (if_pos hi).trans (loadMsgByte_of_other_rx h)
  · next hi =>
    refine (if_neg hi).trans ?_
    dsimp only
    split at h <;> cases h <;> rfl

/-- Settles O28: counting and the completion actions of the other phases read registers and the
configuration alone. -/
theorem lineIsReadOnlyWhenWatched : Obligations.LineIsReadOnlyWhenWatched := by
  intro i s t x hidle hdata h
  cases i with
  | start => exact loadMsgByte_of_other_rx h
  | rxIdle => exact absurd rfl hidle
  | rxData =>
    have hc : s.cnt ≠ 0 := hdata.resolve_left (· rfl)
    rw [exec_counting (by decide) hidle hc] at h
    cases h
    exact countStep_counting _ hc
  | rxStop | pulseLongOn | pulseShortOn =>
    exact countStep_of_other_rx (fun hd => by cases hd; rfl) h
  | pulseLongOff =>
    refine countStep_of_other_rx (fun hd => ?_) h
    split at hd
    · next hm => exact (if_pos hm).trans (loadMsgByte_of_other_rx hd)
    · next hm => cases hd; exact if_neg hm
  | txFrame =>
    refine countStep_of_other_rx (fun hd => ?_) h
    split at hd
    · next hslot => cases hd; exact if_pos hslot
    · next hslot => exact (if_neg hslot).trans (endFrame_of_other_rx hd)
  | pulseShortOff =>
    refine countStep_of_other_rx (fun hd => ?_) h
    split at hd
    · next hp => cases hd; exact if_pos hp
    · next hp => cases hd; exact if_neg hp

/-- Settles O29: every phase but RX_STOP keeps `addr`, and RX_STOP keeps it while it counts. -/
theorem addressIsWrittenByDeliveryAlone : Obligations.AddressIsWrittenByDeliveryAlone := by
  intro s t hs h hne
  obtain ⟨i, u, hi, hu, rfl⟩ := step_of_live hs h
  obtain ⟨_, _, _, haddr, _⟩ := phasesWriteOnlyTheirFields i s u hu
  obtain rfl : i = .rxStop := by_contra fun hstop => hne (haddr hstop)
  rcases execRxStop_cases hu with ⟨_, rfl⟩ | ⟨h0, rfl⟩
  · exact absurd rfl hne
  · exact ⟨hi, h0, rfl, rfl⟩

/-! ## Runs, one edge or one delay at a time -/

/-- A run goes on with an edge whose meaning, on the registers reached and the level sampled there,
leads to registers r'. -/
theorem after_then_exec {s : State} {m : Nat} {r r' : Regs} {i : Instr} (h : After m s r)
    (hs : s.LiveFor (m + 1)) (hi : r.phase = encode i)
    (hu : ∀ t : State, t.toRegs = r → t.cfg = s.cfg → t.rxIn = (inputAt s m).rx →
      ∃ u, exec i t = .next u ∧ u.toRegs = r') : After (m + 1) s r' := by
  refine after_trans h fun t hregs hcfg hp hinputs => ?_
  have hlive : t.Live := live_of_liveFor (liveFor_after hs hcfg hp hinputs)
  obtain ⟨u, hexec, rfl⟩ := hu t hregs hcfg (congrArg Input.rx (hinputs 0))
  exact after_exec hlive (by rw [hregs, hi]) hexec

/-- A run goes on with k edges of counting, from p + k down to p. -/
theorem after_then_counting {s : State} {m n p k : Nat} {r : Regs} {i : Instr}
    (h : After m s { r with cnt := n }) (hs : s.LiveFor (m + k)) (hi : r.phase = encode i)
    (hstart : i ≠ .start) (hidle : i ≠ .rxIdle) (hn : n = p + k) :
    After (m + k) s { r with cnt := p } := by
  refine after_trans h fun t hregs hcfg hp hinputs => ?_
  have hcnt : t.cnt = p + k := by rw [hregs, hn]
  have hcounted := after_counting (s := t) (i := i) (by rw [hregs, hi]) hstart hidle
    (hcnt ▸ Nat.le_add_left k p) (liveFor_after hs hcfg hp hinputs)
  rwa [hcnt, Nat.add_sub_cancel, hregs] at hcounted

/-- Settles O39: each IDLE edge writes nothing, so the next one finds the registers as they were. -/
theorem idleLineIsWaitedOut : Obligations.IdleLineIsWaitedOut := by
  intro s n hphase hs hline
  have hwait : After n s s.toRegs := by
    induction n with
    | zero => exact after_zero hs.2.1
    | succ n ih =>
      refine after_then_exec (ih (liveFor_mono hs n.le_succ) fun j hj => hline j (by omega)) hs
        (i := .rxIdle) hphase fun t hregs _ hrx => ⟨t, execRxIdle_idle ?_, hregs⟩
      rw [hrx, hline n n.lt_succ_self]
  obtain ⟨t, ht, hregs, hcfg, _⟩ := hwait
  exact ⟨t, ht, hregs, hcfg⟩

/-! ## A reception (R93) -/

/-- The edge, counted from the detection edge, at which data bit k is sampled (R93). -/
def sampleEdge (c : Config) (k : Nat) : Nat := halfCycles c + (k + 1) * c.bitCycles

/-- `rx_shift` with the samples of bits 0..n-1 of a reception detected at the coming edge. -/
def assembled (s : State) (n : Nat) : Byte :=
  writeBits (fun k => bitOfLevel (inputAt s (sampleEdge s.cfg k)).rx) 0x00#8 n

/-- The registers just before data bit n is sampled. -/
def beforeSample (s : State) (n : Nat) : Regs :=
  { s.toRegs with phase := encode .rxData, cnt := 0, rxBit := BitVec.ofNat 3 n,
                  rxShift := assembled s n }

theorem sampleEdge_succ (c : Config) (k : Nat) :
    sampleEdge c (k + 1) = sampleEdge c k + c.bitCycles := by
  simp only [sampleEdge]; ring

theorem assembled_succ (s : State) (n : Nat) :
    assembled s (n + 1) = setBit (assembled s n) (BitVec.ofNat 3 n)
      (bitOfLevel (inputAt s (sampleEdge s.cfg n)).rx) :=
  writeBits_succ _ _ n

/-- Bit k of the assembled byte is the complement of the level sampled for it (R93). -/
theorem getLsbD_assembled (s : State) {k : Nat} (hk : k < 8) :
    (assembled s 8).getLsbD k = decide ((inputAt s (sampleEdge s.cfg k)).rx = 0#1) := by
  rw [getLsbD_eq_bitAt, assembled, bitAt_writeBits _ _ le_rfl hk, if_pos hk, getLsbD_bitOfLevel]

theorem bitCycles_pos {c : Config} (h : c.Legal) : 0 < c.bitCycles := by
  obtain ⟨_, hB, _⟩ := (legal_iff c).mp h
  omega

/-- The first sample comes one and a half bit periods after the detection edge. -/
theorem after_first_delay {s : State} (hphase : s.phase = encode .rxIdle)
    (hrx : (inputAt s 0).rx = 1#1) (hs : s.LiveFor (sampleEdge s.cfg 0)) :
    After (sampleEdge s.cfg 0) s (beforeSample s 0) := by
  have hB := bitCycles_pos hs.1
  have hedge : sampleEdge s.cfg 0 = 0 + 1 + (halfCycles s.cfg + s.cfg.bitCycles - 1) := by
    simp only [sampleEdge]; omega
  rw [hedge] at hs ⊢
  have hdetected : After (0 + 1) s
      { beforeSample s 0 with cnt := halfCycles s.cfg + s.cfg.bitCycles - 1 } := by
    refine after_then_exec (after_zero hs.2.1) (liveFor_mono hs (by omega)) hphase
      fun t hregs hcfg hlevel => ⟨_, execRxIdle_active (hlevel.trans hrx), ?_⟩
    simp only [startDelay_toRegs, goto_toRegs, hregs, hcfg]
    rfl
  exact after_then_counting hdetected hs rfl (i := .rxData) nofun nofun (Nat.zero_add _).symm

/-- From one sample to the next it takes one bit period. -/
theorem after_next_sample {s : State} {n : Nat} (hn : n < 7)
    (h : After (sampleEdge s.cfg n) s (beforeSample s n))
    (hs : s.LiveFor (sampleEdge s.cfg (n + 1))) :
    After (sampleEdge s.cfg (n + 1)) s (beforeSample s (n + 1)) := by
  have hB := bitCycles_pos hs.1
  have hedge : sampleEdge s.cfg (n + 1) = sampleEdge s.cfg n + 1 + (s.cfg.bitCycles - 1) := by
    rw [sampleEdge_succ]; omega
  rw [hedge] at hs ⊢
  have hsampled : After (sampleEdge s.cfg n + 1) s
      { beforeSample s (n + 1) with cnt := s.cfg.bitCycles - 1 } := by
    refine after_then_exec h (liveFor_mono hs (by omega)) (i := .rxData) rfl
      fun t hregs hcfg hlevel => ⟨_, execRxData_earlier (by rw [hregs]; rfl) ?_, ?_⟩
    · rw [hregs]
      simp only [beforeSample]
      bv_omega
    · simp only [startDelay_toRegs, takeSample_toRegs, hregs, hcfg, hlevel]
      simp only [beforeSample, assembled_succ, BitVec.ofNat_add]
  exact after_then_counting hsampled hs rfl (i := .rxData) nofun nofun (Nat.zero_add _).symm

/-- Up to the last one, the samples are taken at the centres of the bits. -/
theorem after_samples {s : State} (hphase : s.phase = encode .rxIdle)
    (hrx : (inputAt s 0).rx = 1#1) {n : Nat} (hn : n ≤ 7) (hs : s.LiveFor (sampleEdge s.cfg n)) :
    After (sampleEdge s.cfg n) s (beforeSample s n) := by
  induction n with
  | zero => exact after_first_delay hphase hrx hs
  | succ n ih =>
    refine after_next_sample hn (ih (by omega) (liveFor_mono hs ?_)) hs
    rw [sampleEdge_succ]
    exact Nat.le_add_right _ _

/-- The registers just before the byte's delivery. -/
def beforeDelivery (s : State) : Regs :=
  { beforeSample s 7 with phase := encode .rxStop, rxShift := assembled s 8 }

/-- The last sample, at 1.5 B + 7 B, is followed by a delay of 1.5 B that passes over the stop bit. -/
theorem after_stop_bit {s : State} (hphase : s.phase = encode .rxIdle)
    (hrx : (inputAt s 0).rx = 1#1) (hs : s.LiveFor (10 * s.cfg.bitCycles)) :
    After (10 * s.cfg.bitCycles) s (beforeDelivery s) := by
  have hB := bitCycles_pos hs.1
  have hH := two_half hs.1
  have hedge : 10 * s.cfg.bitCycles =
      sampleEdge s.cfg 7 + 1 + (s.cfg.bitCycles + halfCycles s.cfg - 1) := by
    simp only [sampleEdge]; omega
  rw [hedge] at hs ⊢
  have hlast := after_samples hphase hrx le_rfl (liveFor_mono hs (by omega))
  have hsampled : After (sampleEdge s.cfg 7 + 1) s
      { beforeDelivery s with cnt := s.cfg.bitCycles + halfCycles s.cfg - 1 } := by
    refine after_then_exec hlast (liveFor_mono hs (by omega)) (i := .rxData) rfl
      fun t hregs hcfg hlevel =>
        ⟨_, execRxData_last (by rw [hregs]; rfl) (by rw [hregs]; rfl), ?_⟩
    simp only [startDelay_toRegs, goto_toRegs, takeSample_toRegs, hregs, hcfg, hlevel]
    rw [beforeDelivery, assembled_succ]
    rfl
  exact after_then_counting hsampled hs rfl (i := .rxStop) nofun nofun (Nat.zero_add _).symm

/-- The registers after the byte's delivery. -/
def afterDelivery (s : State) : Regs :=
  { s.toRegs with phase := encode .pulseLongOn, cnt := s.cfg.longCycles - 1, rxBit := 7#3,
                  rxShift := assembled s 8, addr := assembled s 8, statusOut := 0#1 }

/-- The byte is delivered ten bit periods after the detection edge (R93). -/
theorem after_reception {s : State} (hphase : s.phase = encode .rxIdle)
    (hrx : (inputAt s 0).rx = 1#1) (hs : s.LiveFor (10 * s.cfg.bitCycles + 1)) :
    After (10 * s.cfg.bitCycles + 1) s (afterDelivery s) := by
  have hpassed := after_stop_bit hphase hrx (liveFor_mono hs (Nat.le_succ _))
  refine after_then_exec hpassed hs (i := .rxStop) rfl fun t hregs hcfg _ =>
    ⟨_, execRxStop_delivers (by rw [hregs]; rfl), ?_⟩
  simp only [startDelay_toRegs, setStatus_toRegs, goto_toRegs, hregs, hcfg]
  rfl

/-- Settles O40: the registers after the delivery hold the byte the eight samples assembled, and the
transmitter's as they were. -/
theorem receptionSamplesBitCentres : Obligations.ReceptionSamplesBitCentres := by
  intro s hphase hs hrx
  obtain ⟨t, ht, hregs, hcfg, _⟩ := after_reception hphase hrx hs
  refine ⟨t, ht, ?_, hcfg, ?_, fun k hk => ?_⟩
  · rw [State.LongPulseBegun, hregs, hcfg]; exact ⟨rfl, rfl, rfl⟩
  · rw [hregs]; rfl
  · rw [hregs]; exact getLsbD_assembled s hk

/-- Every sample lies after the detection edge and before the delivery. -/
theorem sampleEdge_bounds {c : Config} (h : c.Legal) {k : Nat} (hk : k < 8) :
    1 ≤ sampleEdge c k ∧ sampleEdge c k < 10 * c.bitCycles := by
  have hB := bitCycles_pos h
  have hH := two_half h
  have hlow : 1 * c.bitCycles ≤ (k + 1) * c.bitCycles := Nat.mul_le_mul_right _ (by omega)
  have hhigh : (k + 1) * c.bitCycles ≤ 8 * c.bitCycles := Nat.mul_le_mul_right _ hk
  unfold sampleEdge
  omega

/-- On a line that keeps one level after the detection edge, every bit is that level's complement. -/
theorem getLsbD_of_constant_line {s : State} {b : Byte} {v : Bit} (hl : s.cfg.Legal)
    (hbits : ∀ k < 8, b.getLsbD k = decide ((inputAt s (sampleEdge s.cfg k)).rx = 0#1))
    (hline : ∀ j, 1 ≤ j → j ≤ 10 * s.cfg.bitCycles → (inputAt s j).rx = v) :
    ∀ k < 8, b.getLsbD k = decide (v = 0#1) := by
  intro k hk
  obtain ⟨hfirst, hlast⟩ := sampleEdge_bounds hl hk
  rw [hbits k hk, hline _ hfirst hlast.le]

/-- Settles O41: every sample reads the one level the line keeps after the detection edge. -/
theorem glitchAndStuckLineBytes : Obligations.GlitchAndStuckLineBytes := by
  intro s hphase hs hrx
  obtain ⟨t, ht, _, _, _, hbits⟩ := receptionSamplesBitCentres s hphase hs hrx
  refine ⟨fun hline => ⟨t, ht, ?glitch⟩, fun hline => ⟨t, ht, ?stuck⟩⟩
  case glitch =>
    have hones := getLsbD_of_constant_line hs.1 hbits hline
    refine BitVec.eq_of_getLsbD_eq fun k hk => (hones k hk).trans ?_
    exact (BitVec.getLsbD_allOnes.trans (decide_eq_true hk)).symm
  case stuck =>
    have hzeros := getLsbD_of_constant_line hs.1 hbits fun j _ hj => hline j hj
    refine BitVec.eq_of_getLsbD_eq fun k hk => (hzeros k hk).trans ?_
    exact BitVec.getLsbD_zero.symm

/-! ## The round trip (R94) -/

theorem execTxFrame_nextSlot {s : State} (h0 : s.cnt = 0) (hslot : s.txSlot < 10#4) :
    execTxFrame s = .next (nextSlot s) := by
  rw [execTxFrame, countStep_done _ h0, if_pos hslot]

/-- The registers in slot m of the frame begun, d edges after the slot's first interval. -/
def inSlot (s : State) (m d : Nat) : Regs :=
  { s.toRegs with txSlot := BitVec.ofNat 4 m, txOut := slotLevel s.txByte (BitVec.ofNat 4 m),
                  cnt := s.cfg.bitCycles - 1 - d }

/-- At its first interval a frame is in slot 0 (R110). -/
theorem inSlot_zero {s : State} (h : s.FrameBegun) : inSlot s 0 0 = s.toRegs := by
  obtain ⟨_, hslot, hout, hcnt⟩ := h
  change { s.toRegs with txSlot := 0#4, txOut := 1#1, cnt := s.cfg.bitCycles - 1 } = s.toRegs
  rw [← hslot, ← hout, ← hcnt]

/-- A slot is held for its B intervals. -/
theorem after_holding_slot {s : State} (hphase : s.phase = encode .txFrame) {m d : Nat}
    (h : After (m * s.cfg.bitCycles) s (inSlot s m 0)) (hd : d < s.cfg.bitCycles)
    (hs : s.LiveFor (m * s.cfg.bitCycles + d)) :
    After (m * s.cfg.bitCycles + d) s (inSlot s m d) :=
  after_then_counting (r := inSlot s m d) h hs hphase nofun nofun (by omega)

/-- Then the next slot's level goes on the line (R112). -/
theorem after_next_slot {s : State} (hphase : s.phase = encode .txFrame) {m : Nat} (hm : m < 10)
    (h : After (m * s.cfg.bitCycles) s (inSlot s m 0))
    (hs : s.LiveFor ((m + 1) * s.cfg.bitCycles)) :
    After ((m + 1) * s.cfg.bitCycles) s (inSlot s (m + 1) 0) := by
  have hB := bitCycles_pos hs.1
  have hedge : (m + 1) * s.cfg.bitCycles = m * s.cfg.bitCycles + (s.cfg.bitCycles - 1) + 1 := by
    rw [Nat.succ_mul]; omega
  rw [hedge] at hs ⊢
  have hheld := after_holding_slot hphase h (Nat.sub_one_lt_of_lt hB) (liveFor_mono hs (by omega))
  refine after_then_exec hheld hs (i := .txFrame) hphase fun t hregs hcfg _ =>
    ⟨nextSlot t, execTxFrame_nextSlot ?_ ?_, ?_⟩
  · rw [hregs]
    exact Nat.sub_self _
  · rw [hregs]
    simp only [inSlot]
    bv_omega
  · simp only [nextSlot_toRegs, hregs, hcfg, inSlot, BitVec.ofNat_add]
    rfl

/-- Slot m of a frame is on the line for the B intervals from m B on (R113). -/
theorem after_slot {s : State} (hbegun : s.FrameBegun) {m d : Nat} (hm : m ≤ 10)
    (hd : d < s.cfg.bitCycles) (hs : s.LiveFor (m * s.cfg.bitCycles + d)) :
    After (m * s.cfg.bitCycles + d) s (inSlot s m d) := by
  have ⟨hphase, _⟩ := hbegun
  refine after_holding_slot hphase ?_ hd hs
  replace hs := liveFor_mono hs (Nat.le_add_right _ d)
  induction m with
  | zero =>
    rw [inSlot_zero hbegun, Nat.zero_mul]
    exact after_zero hs.2.1
  | succ m ih =>
    refine after_next_slot hphase hm (ih (by omega) (liveFor_mono hs ?_)) hs
    exact Nat.mul_le_mul_right _ m.le_succ

/-- What a run's registers drive is what the line shows (R28). -/
theorem txLine_of_after {s : State} {n : Nat} {r : Regs} (h : After n s r) :
    txLine n s = some r.txOut := by
  obtain ⟨t, ht, rfl, _⟩ := h
  rw [txLine, ht]

/-- At the sampling edge of data bit k the line carries the frame's slot k + 1 (R94). -/
theorem txLine_sampleEdge {s : State} (hbegun : s.FrameBegun) {k : Nat} (hk : k < 8)
    (hs : s.LiveFor (11 * s.cfg.bitCycles)) :
    txLine (sampleEdge s.cfg k) s = some (slotLevel s.txByte (BitVec.ofNat 4 (k + 1))) := by
  have hB := bitCycles_pos hs.1
  have hH := two_half hs.1
  obtain ⟨_, hlast⟩ := sampleEdge_bounds hs.1 hk
  rw [sampleEdge, Nat.add_comm] at hlast ⊢
  exact txLine_of_after
    (after_slot hbegun (by omega) (by omega) (liveFor_mono hs (by omega)))

/-- Settles O44: at each sampling edge the receiver reads the data slot of its bit, whose level is the
bit's complement, and complements it again. -/
theorem receiverReadsBackTheFrameSent : Obligations.ReceiverReadsBackTheFrameSent := by
  intro tx rx hbegun hphase hB htx hrx hline
  have hlevel {k : Nat} (hk : k < 8) : (inputAt rx (sampleEdge rx.cfg k)).rx =
      slotLevel tx.txByte (BitVec.ofNat 4 (k + 1)) := by
    have hsent := txLine_sampleEdge hbegun hk htx
    rw [sampleEdge, halfCycles, hB] at hsent
    have hseen := hline _ (sampleEdge_bounds hrx.1 hk).2.le
    exact Option.some_inj.mp (hseen.symm.trans hsent)
  have hstart : (inputAt rx 0).rx = 1#1 := by
    obtain ⟨_, _, hout, _⟩ := hbegun
    have hsent := txLine_of_after (after_zero htx.2.1)
    have hseen := hline 0 (Nat.zero_le _)
    exact (Option.some_inj.mp (hseen.symm.trans hsent)).trans hout
  obtain ⟨t, ht, _, _, _, hbits⟩ := receptionSamplesBitCentres rx hphase hrx hstart
  refine ⟨t, ht, BitVec.eq_of_getLsbD_eq fun k hk => ?_⟩
  calc t.addr.getLsbD k
      = (bitOfLevel (inputAt rx (sampleEdge rx.cfg k)).rx).getLsbD 0 :=
        (hbits k hk).trans (getLsbD_bitOfLevel _).symm
    _ = (bitAt tx.txByte k).getLsbD 0 := by
        rw [hlevel hk, slotLevel_data _ k hk, bitOfLevel_levelOfBit]
    _ = tx.txByte.getLsbD k := (getLsbD_eq_bitAt _ k).symm

end Sys2Proof.Proofs

/-! # Proofs: the Frame and Message Transmitter (spec/42_transmitter.md R110 to R117) -/

namespace Sys2Proof.Proofs

open Sys2Proof.Machine Sys2Proof.Laws

/-! ## One edge of TX_FRAME (R112, R115) -/

/-- Below slot 10 the next slot's level is ACTIVE exactly for a data bit 0: slots 1 to 8 carry the bits,
and the two slots after them are IDLE (R60). -/
theorem slotLevel_next_eq_active_iff (b : Byte) {slot : BitVec 4} (hslot : slot < 10#4) :
    slotLevel b (slot + 1#4) = 1#1 ↔ slot < 8#4 ∧ b.getLsbD slot.toNat = false := by
  by_cases hdata : slot < 8#4
  · have hcode : slot + 1#4 = BitVec.ofNat 4 (slot.toNat + 1) := by bv_omega
    rw [hcode, slotLevel_data b _ (by bv_omega), levelOfBit_bitAt]
    cases b.getLsbD slot.toNat <;> simp [hdata]
  · rw [slotLevel_idle b _ (by bv_omega)]
    simp [hdata]

/-- Settles O23: counting, and the next slot at 0. -/
theorem txFrameHoldsAndAdvancesSlots : Obligations.TxFrameHoldsAndAdvancesSlots := by
  intro s
  exact ⟨countStep_counting _, fun h0 hslot => ⟨s.txSlot + 1#4, slotLevel s.txByte (s.txSlot + 1#4),
    by bv_omega, slotLevel_next_eq_active_iff s.txByte hslot, execTxFrame_nextSlot h0 hslot⟩⟩

/-- The last slot's end is the frame's end (R112). -/
theorem execTxFrame_endFrame {s : State} (h0 : s.cnt = 0) (hslot : 10#4 ≤ s.txSlot) :
    execTxFrame s = endFrame s := by
  rw [execTxFrame, countStep_done _ h0, if_neg (by bv_omega)]

/-- While the message has a next byte, its frame is loaded (R115). -/
theorem endFrame_nextByte {s : State} {b : Byte}
    (hb : msgByte s s.msgSel (s.msgIdx + 1) = some b) :
    endFrame s = .next (loadFrame b { s with msgIdx := s.msgIdx + 1 }) := by
  have hidx := (msgByte_isSome_iff s s.msgSel _).mp (Option.isSome_of_eq_some hb)
  rw [endFrame, if_pos hidx, loadMsgByte_some hb]

/-- After its last byte the banner returns to RX_IDLE (R115). -/
theorem endFrame_banner {s : State} (hidx : msgLen s s.msgSel ≤ s.msgIdx + 1)
    (hsel : s.msgSel = .banner) : endFrame s = .next (goto .rxIdle s) := by
  rw [endFrame, if_neg hidx.not_gt, hsel]

/-- After its last byte the reply begins the first short pulse (R115). -/
theorem endFrame_reply {s : State} (hidx : msgLen s s.msgSel ≤ s.msgIdx + 1)
    (hsel : s.msgSel = .reply) :
    endFrame s = .next (startDelay s.cfg.shortCycles
      (setStatus 0#1 (goto .pulseShortOn { s with pulseN := 0#1 }))) := by
  rw [endFrame, if_neg hidx.not_gt, hsel]

/-- Settles O24: the three ways a frame ends. -/
theorem frameEndContinuesOrEndsTheMessage : Obligations.FrameEndContinuesOrEndsTheMessage := by
  intro s h0 hslot
  have hend : exec .txFrame s = endFrame s := execTxFrame_endFrame h0 hslot
  rw [hend]
  refine ⟨fun hidx => ?_, endFrame_banner, endFrame_reply⟩
  obtain ⟨b, hb⟩ := msgByte_eq_some hidx
  exact ⟨b, hb, endFrame_nextByte hb⟩

/-! ## A frame's eleven slots (R113) -/

/-- Settles O42: interval n of a frame is interval n % B of slot n / B. -/
theorem frameOccupiesElevenBitPeriods : Obligations.FrameOccupiesElevenBitPeriods := by
  intro s n hbegun hn hs
  have hB := bitCycles_pos hs.1
  have hslot : n / s.cfg.bitCycles < 11 := (Nat.div_lt_iff_lt_mul hB).mpr hn
  have hsplit := Nat.div_add_mod' n s.cfg.bitCycles
  have hrun := after_slot hbegun (Nat.le_of_lt_succ hslot) (Nat.mod_lt n hB) (hsplit.symm ▸ hs)
  rw [hsplit] at hrun
  obtain ⟨t, ht, hregs, _⟩ := hrun
  refine ⟨t, ht, ?_⟩
  rw [hregs]
  refine ⟨hbegun.1, rfl, rfl, ?slot, rfl, ?last⟩
  case slot => exact Nat.mod_eq_of_lt (by omega)
  case last =>
    rintro rfl
    have hlast : 11 * s.cfg.bitCycles - 1 = s.cfg.bitCycles - 1 + 10 * s.cfg.bitCycles := by omega
    have hlt : s.cfg.bitCycles - 1 < s.cfg.bitCycles := Nat.sub_one_lt_of_lt hB
    rw [hlast, Nat.add_mul_div_right _ _ hB, Nat.div_eq_of_lt hlt, Nat.add_mul_mod_self_right,
      Nat.mod_eq_of_lt hlt]
    exact ⟨Nat.sub_self _, rfl⟩

/-! ## The frames of a message (R116) -/

/-- The registers at the first interval of the message's frame i, which sends byte b. -/
def frameStart (s : State) (i : Nat) (b : Byte) : Regs := { s.toRegs with msgIdx := i, txByte := b }

/-- The registers at the last interval of the message's frame i. -/
def frameLast (s : State) (i : Nat) (b : Byte) : Regs :=
  { frameStart s i b with txSlot := 10#4, txOut := 0#1, cnt := 0 }

/-- The bytes of a message depend on the configuration and `addr` alone (R41). -/
theorem msgByte_congr {s t : State} (hcfg : t.cfg = s.cfg) (haddr : t.addr = s.addr) (sel : MsgSel)
    (i : Nat) : msgByte t sel i = msgByte s sel i := by
  rw [msgByte, msgByte, hcfg, haddr]

/-- Eleven bit periods after frame i began, less one edge, its last interval has come (R113). -/
theorem after_frameLast {s : State} (hbegun : s.FrameBegun) {m i : Nat} {b : Byte}
    (h : After m s (frameStart s i b)) (hs : s.LiveFor (m + (11 * s.cfg.bitCycles - 1))) :
    After (m + (11 * s.cfg.bitCycles - 1)) s (frameLast s i b) := by
  have hB := bitCycles_pos hs.1
  have hedge : 11 * s.cfg.bitCycles - 1 = 10 * s.cfg.bitCycles + (s.cfg.bitCycles - 1) := by omega
  rw [hedge] at hs ⊢
  refine after_trans h fun t hregs hcfg hp hinputs => ?_
  have hstart : t.FrameBegun := by rw [State.FrameBegun, hregs, hcfg]; exact hbegun
  have hlive := liveFor_after hs hcfg hp hinputs
  rw [← hcfg] at hlive hB ⊢
  have hslot := after_slot hstart le_rfl (Nat.sub_one_lt_of_lt hB) hlive
  rwa [inSlot, slotLevel_idle _ _ (by decide), Nat.sub_self, hregs] at hslot

/-- Frame i lasts eleven bit periods; then the run goes on where its end leads. -/
theorem after_frame {s : State} (hbegun : s.FrameBegun) {i : Nat} {b : Byte} {r : Regs}
    (h : After (11 * s.cfg.bitCycles * i) s (frameStart s i b))
    (hs : s.LiveFor (11 * s.cfg.bitCycles * (i + 1)))
    (hend : ∀ t : State, t.toRegs = frameLast s i b → t.cfg = s.cfg →
      ∃ u, endFrame t = .next u ∧ u.toRegs = r) :
    After (11 * s.cfg.bitCycles * (i + 1)) s r := by
  have hB := bitCycles_pos hs.1
  have hedge : 11 * s.cfg.bitCycles * (i + 1) =
      11 * s.cfg.bitCycles * i + (11 * s.cfg.bitCycles - 1) + 1 := by
    rw [Nat.mul_succ]; omega
  rw [hedge] at hs ⊢
  have hheld := after_frameLast hbegun h (liveFor_mono hs (Nat.le_succ _))
  refine after_then_exec hheld hs (i := .txFrame) hbegun.1 fun t hregs hcfg _ => ?_
  have h0 : t.cnt = 0 := by rw [hregs]; rfl
  have hslot : 10#4 ≤ t.txSlot := by rw [hregs]; exact BitVec.le_refl _
  obtain ⟨u, hu, hr⟩ := hend t hregs hcfg
  exact ⟨u, (execTxFrame_endFrame h0 hslot).trans hu, hr⟩

/-- Frame i begins 11 B i edges after the first, with byte i of the message. -/
theorem after_frames {s : State} (hbegun : s.MessageBegun) {i : Nat} {b : Byte}
    (hb : msgByte s s.msgSel i = some b) (hs : s.LiveFor (11 * s.cfg.bitCycles * i)) :
    After (11 * s.cfg.bitCycles * i) s (frameStart s i b) := by
  obtain ⟨hframe, hidx, hfirst⟩ := hbegun
  induction i generalizing b with
  | zero =>
    obtain rfl : s.txByte = b := Option.some_inj.mp (hfirst.symm.trans hb)
    have hstart : frameStart s 0 s.txByte = s.toRegs := by rw [frameStart, ← hidx]
    rw [hstart]
    exact after_zero hs.2.1
  | succ i ih =>
    have hi := (msgByte_isSome_iff s s.msgSel _).mp (Option.isSome_of_eq_some hb)
    obtain ⟨c, hc⟩ := msgByte_eq_some (Nat.lt_of_succ_lt hi)
    refine after_frame hframe (ih hc (liveFor_mono hs (Nat.mul_le_mul_left _ i.le_succ))) hs
      fun t hregs hcfg => ⟨_, endFrame_nextByte (b := b) ?_, ?_⟩
    · rw [msgByte_congr hcfg (by rw [hregs]; rfl), hregs]
      exact hb
    · obtain ⟨_, hslot, hout, hcnt⟩ := hframe
      simp only [loadFrame_toRegs, hregs, hcfg, frameLast, frameStart, hslot, hout, hcnt]

/-- The registers after the message's last frame, of byte i (R115). -/
def messageEnd (s : State) (i : Nat) (b : Byte) : MsgSel → Regs
  | .banner => { frameLast s i b with phase := encode .rxIdle }
  | .reply => { frameLast s i b with phase := encode .pulseShortOn, cnt := s.cfg.shortCycles - 1,
                                     pulseN := 0#1, statusOut := 0#1 }

/-- A message of i + 1 bytes ends 11 B (i + 1) edges after its first frame began. -/
theorem after_message {s : State} (hbegun : s.MessageBegun) {i : Nat} {b : Byte}
    (hb : msgByte s s.msgSel i = some b) (hlen : msgLen s s.msgSel = i + 1)
    (hs : s.LiveFor (11 * s.cfg.bitCycles * (i + 1))) :
    After (11 * s.cfg.bitCycles * (i + 1)) s (messageEnd s i b s.msgSel) := by
  have ⟨hframe, _⟩ := hbegun
  have hlast := after_frames hbegun hb (liveFor_mono hs (Nat.mul_le_mul_left _ i.le_succ))
  refine after_frame hframe hlast hs fun t hregs hcfg => ?_
  have hsel : t.msgSel = s.msgSel := by rw [hregs]; rfl
  have hidx : msgLen t t.msgSel ≤ t.msgIdx + 1 := by
    rw [msgLen_eq, hsel, hcfg, ← msgLen_eq, hlen, hregs]
    exact le_rfl
  cases h : s.msgSel with
  | banner =>
    refine ⟨_, endFrame_banner hidx (hsel.trans h), ?_⟩
    rw [goto_toRegs, hregs]
    rfl
  | reply =>
    refine ⟨_, endFrame_reply hidx (hsel.trans h), ?_⟩
    simp only [startDelay_toRegs, setStatus_toRegs, goto_toRegs, hregs, hcfg]
    rfl

/-- Settles O43: below N a frame has begun, and at N the message has ended. -/
theorem messageFramesAreBackToBack : Obligations.MessageFramesAreBackToBack := by
  intro s i hbegun hi hs
  have ⟨hframe, _, hfirst⟩ := hbegun
  rcases hi.lt_or_eq with hlt | rfl
  · obtain ⟨b, hb⟩ := msgByte_eq_some hlt
    obtain ⟨t, ht, hregs, hcfg, _⟩ := after_frames hbegun hb hs
    refine ⟨t, ht, ?_⟩
    rw [State.FrameBegun, hregs, hcfg]
    exact ⟨rfl, rfl, rfl, fun _ => ⟨hframe, rfl, hb⟩, fun h => absurd h hlt.ne,
      fun h => absurd h hlt.ne⟩
  · have hpos := (msgByte_isSome_iff s s.msgSel 0).mp (Option.isSome_of_eq_some hfirst)
    obtain ⟨k, hlen⟩ := Nat.exists_eq_add_one.mpr hpos
    obtain ⟨b, hb⟩ := msgByte_eq_some (hlen ▸ Nat.lt_add_one k)
    have hrun := after_message hbegun hb hlen (hlen ▸ hs)
    rw [← hlen] at hrun
    obtain ⟨t, ht, hregs, hcfg, _⟩ := hrun
    refine ⟨t, ht, ?_⟩
    rw [State.ShortPulsesBegun, hregs, hcfg]
    cases hsel : s.msgSel with
    | banner =>
      exact ⟨hsel, rfl, rfl, fun h => absurd h (lt_irrefl _), fun _ _ => ⟨rfl, rfl⟩, nofun⟩
    | reply =>
      exact ⟨hsel, rfl, rfl, fun h => absurd h (lt_irrefl _), nofun,
        fun _ _ => ⟨⟨rfl, rfl, rfl, rfl⟩, rfl⟩⟩

/-! ## The outputs in every run (R43, R117, R140) -/

/-- What every step keeps holds after any number of edges. -/
theorem edges_keeps {P : State → Prop} (hstep : ∀ s t, P s → step s = .next t → P t) {n : Nat}
    {s t : State} (hs : P s) (h : edges n s = .next t) : P t := by
  induction n generalizing s with
  | zero => cases h; exact hs
  | succ n ih =>
    cases hu : step s with
    | next u => rw [edges_succ n hu] at h; exact ih (hstep s u hs hu) h
    | fault e => simp [edges, hu] at h
    | refused e => simp [edges, hu] at h

/-- No step returns to the power-up interval (R31). -/
theorem step_keeps_power {s t : State} (hp : s.power = .up) (h : step s = .next t) :
    t.power = .up := by
  obtain ⟨_, ⟨_, rfl⟩ | ⟨_, hun, _⟩ | ⟨_, _, i, u, _, hu, rfl⟩⟩ := step_cases h
  · rfl
  · rw [hp] at hun; cases hun
  · obtain ⟨_, hpu, _⟩ := exec_keeps_environment hu
    exact hpu.trans hp

/-- Every state of a run from reset is in one of the nine phases, with that phase's invariant (R32). -/
theorem invAt_of_run_from_reset {c : Config} (hl : c.Legal) {rx : Bit} {stim : List Input} {n : Nat}
    {t : State} (h : edges n { State.resetOf c with rxIn := rx, stim := stim } = .next t) :
    t.cfg = c ∧ ∃ i, InvAt i t := by
  have hkept : t.cfg = c ∧ t.power = .up ∧ t.Inv := by
    refine edges_keeps (P := fun u => u.cfg = c ∧ u.power = .up ∧ u.Inv) ?_ ?_ h
    · rintro u v ⟨hcfg, hp, hinv⟩ hstep
      exact ⟨(configurationNeverChanges u v hstep).trans hcfg, step_keeps_power hp hstep,
        everyStepKeepsTheInvariant u v hinv hstep⟩
    · exact ⟨rfl, rfl, (inv_iff _).mpr fun _ => ⟨.start, invAt_reset hl rfl⟩⟩
  obtain ⟨hcfg, hp, hinv⟩ := hkept
  exact ⟨hcfg, (inv_iff t).mp hinv hp⟩

/-- The indicator is on in exactly the two on phases (R140). -/
theorem statusLevel_eq_on_iff (i : Instr) :
    statusLevel i = 0#1 ↔ encode i = encode .pulseLongOn ∨ encode i = encode .pulseShortOn := by
  cases i <;> decide

/-- Settles O37: the phase's invariant says what both outputs and a reply's address are. -/
theorem outputsFollowThePhaseInEveryRun : Obligations.OutputsFollowThePhaseInEveryRun := by
  intro c rx stim n t hl h
  obtain ⟨hcfg, i, hi⟩ := invAt_of_run_from_reset hl h
  refine ⟨fun hphase => hi.line ?_, ?_, fun hphase hsel => ?_⟩
  · rintro rfl
    exact hphase hi.phase
  · rw [hi.status, hi.phase]
    exact statusLevel_eq_on_iff i
  · have hsending : i = .txFrame := encode_injective (hi.phase.symm.trans hphase)
    obtain ⟨_, _, haddr⟩ := hi.sending hsending
    rw [← hcfg]
    exact haddr hsel

end Sys2Proof.Proofs

/-! # Proofs: the startup and the Node Dispatch Loop (spec/43_dispatch.md R131 to R138, R176) -/

namespace Sys2Proof.Proofs

open Sys2Proof.Machine Sys2Proof.Laws

/-! ## Entering a phase (R130) -/

/-- A meaning enters another phase by one of the moves. -/
theorem move_of_exec_enters {i j : Instr} {s t : State} (h : exec i s = .next t)
    (hs : s.phase ≠ encode j) (ht : t.phase = encode j) : (i, j) ∈ phaseMoves := by
  rcases exec_holds_or_moves h with hheld | ⟨k, hmove, hk⟩
  · exact absurd (hheld.symm.trans ht) hs
  · obtain rfl : k = j := encode_injective (hk.symm.trans ht)
    exact hmove

/-- No move leads to START (R131). -/
theorem no_move_to_start (i : Instr) : (i, .start) ∉ phaseMoves := by
  cases i <;> decide

/-- Only RX_STOP moves to PULSE_LONG_ON (R132). -/
theorem source_of_move_to_pulseLongOn {i : Instr} (h : (i, .pulseLongOn) ∈ phaseMoves) :
    i = .rxStop := by
  simpa [phaseMoves] using h

/-- The moves into PULSE_SHORT_ON come from a reply's end and from PULSE_SHORT_OFF (R134). -/
theorem source_of_move_to_pulseShortOn {i : Instr} (h : (i, .pulseShortOn) ∈ phaseMoves) :
    i = .txFrame ∨ i = .pulseShortOff := by
  simpa [phaseMoves] using h

/-! ## Starting a message (R111) -/

/-- Starting a message that has a first byte loads that byte's frame. -/
theorem startMessage_some {s : State} {sel : MsgSel} {b : Byte} (h : msgByte s sel 0 = some b) :
    startMessage sel s = .next (loadFrame b { goto .txFrame s with msgSel := sel, msgIdx := 0 }) :=
  loadMsgByte_some h

/-- A banner that is not empty starts with its text (R41). -/
theorem msgByte_banner_zero {s : State} (h : s.cfg.banner ≠ []) :
    msgByte s .banner 0 = s.cfg.banner.head? := by
  rw [msgByte_banner_text (List.length_pos_iff.mpr h), List.head?_eq_getElem?]

/-- The reply starts with its fixed text or, where that is empty, with the address (R41). -/
theorem msgByte_reply_zero (s : State) :
    msgByte s .reply 0 = (s.cfg.replyPrefix ++ [s.addr]).head? := by
  rw [List.head?_eq_getElem?, msgByte, msgSeq, List.append_assoc,
    List.getElem?_append_left (by simp)]

/-- Settles O17: the banner's first byte is loaded; START leads to TX_FRAME and no other phase moves to
START. -/
theorem startBeginsTheBanner : Obligations.StartBeginsTheBanner := by
  refine ⟨fun s hl => ?begins, fun i s t hi h ht => ?entry⟩
  case begins =>
    obtain ⟨_, _, _, _, hbanner, _⟩ := (legal_iff s.cfg).mp hl
    have hfirst := List.head?_eq_some_head hbanner
    exact ⟨_, hfirst, startMessage_some ((msgByte_banner_zero hbanner).trans hfirst)⟩
  case entry =>
    by_cases hstart : i = .start
    · subst hstart
      obtain ⟨b, _, rfl⟩ := execStart_cases h
      exact absurd ht (by decide : encode .txFrame ≠ 0#4)
    · have hs : s.phase ≠ encode .start := fun h0 => hstart (encode_injective (hi.symm.trans h0))
      exact no_move_to_start i (move_of_exec_enters h hs ht)

/-! ## The pulses' phases, read forward (R132 to R135) -/

/-- A match starts the reply (R133). -/
theorem execPulseLongOff_match {s : State} {b : Byte} (h0 : s.cnt = 0) (haddr : s.addr = s.cfg.nodeId)
    (hb : msgByte s .reply 0 = some b) :
    execPulseLongOff s =
      .next (loadFrame b { goto .txFrame s with msgSel := .reply, msgIdx := 0 }) := by
  rw [execPulseLongOff, countStep_done _ h0, if_pos (by simpa [addrMatch] using haddr),
    startMessage_some hb]

/-- A mismatch returns to RX_IDLE (R133). -/
theorem execPulseLongOff_mismatch {s : State} (h0 : s.cnt = 0) (haddr : s.addr ≠ s.cfg.nodeId) :
    execPulseLongOff s = .next (goto .rxIdle s) := by
  rw [execPulseLongOff, countStep_done _ h0, if_neg (by simpa [addrMatch] using haddr)]

/-- The first short pulse starts the second (R135). -/
theorem execPulseShortOff_first {s : State} (h0 : s.cnt = 0) (hpulse : s.pulseN = 0#1) :
    execPulseShortOff s = .next (startDelay s.cfg.shortCycles
      (setStatus 0#1 (goto .pulseShortOn { s with pulseN := 1#1 }))) := by
  rw [execPulseShortOff, countStep_done _ h0, if_neg (by simp [secondPulse, hpulse])]

/-- The second short pulse returns to RX_IDLE (R135). -/
theorem execPulseShortOff_second {s : State} (h0 : s.cnt = 0) (hpulse : s.pulseN = 1#1) :
    execPulseShortOff s = .next (goto .rxIdle { s with pulseN := 0#1 }) := by
  rw [execPulseShortOff, countStep_done _ h0, if_pos (by simp [secondPulse, hpulse])]

/-- Settles O22: counting, a match and a mismatch. -/
theorem pulseLongOffComparesTheAddress : Obligations.PulseLongOffComparesTheAddress := by
  intro s
  refine ⟨countStep_counting _, fun h0 haddr => ?_, execPulseLongOff_mismatch⟩
  obtain ⟨b, hb⟩ := msgByte_eq_some (Nat.zero_lt_two.trans_le (reply_length s))
  exact ⟨b, (msgByte_reply_zero s).symm.trans hb, execPulseLongOff_match h0 haddr hb⟩

/-- Settles O26: counting, the first pulse and the second. -/
theorem pulseShortOffRepeatsOnce : Obligations.PulseShortOffRepeatsOnce :=
  fun _ => ⟨countStep_counting _, execPulseShortOff_first, execPulseShortOff_second⟩

/-- The two kinds of pulse of the indicator (R132 to R135). -/
inductive Pulse where
  | long
  | short

/-- The phase in which the indicator is on. -/
def Pulse.onPhase : Pulse → Instr
  | .long => .pulseLongOn
  | .short => .pulseShortOn

/-- The phase in which the indicator is off again. -/
def Pulse.offPhase : Pulse → Instr
  | .long => .pulseLongOff
  | .short => .pulseShortOff

/-- How long each of the two phases lasts. -/
def Pulse.cycles (c : Config) : Pulse → Nat
  | .long => c.longCycles
  | .short => c.shortCycles

theorem Pulse.onPhase_timed (p : Pulse) : p.onPhase ≠ .start ∧ p.onPhase ≠ .rxIdle := by
  cases p <;> decide

theorem Pulse.offPhase_timed (p : Pulse) : p.offPhase ≠ .start ∧ p.offPhase ≠ .rxIdle := by
  cases p <;> decide

/-- At the end of the on phase the indicator goes off for an equal time (R132, R134). -/
theorem exec_onPhase_done (p : Pulse) {s : State} (h0 : s.cnt = 0) :
    exec p.onPhase s = .next (pulseOff (p.cycles s.cfg) p.offPhase s) := by
  cases p <;> exact countStep_done _ h0

/-- Settles O21: counting, and the end of the on phase; only RX_STOP moves here, by its delivery. -/
theorem pulseLongOnEndsInOff : Obligations.PulseLongOnEndsInOff := by
  refine ⟨fun s => ⟨countStep_counting _, exec_onPhase_done .long⟩, fun i s t _ h hs => ?_⟩
  have hdelivers : t.phase = encode .pulseLongOn → i = .rxStop ∧ s.cnt = 0 := by
    intro ht
    obtain rfl := source_of_move_to_pulseLongOn (move_of_exec_enters h hs ht)
    rcases execRxStop_cases h with ⟨_, rfl⟩ | ⟨h0, _⟩
    · exact absurd ht hs
    · exact ⟨rfl, h0⟩
  have hdelivered : i = .rxStop ∧ s.cnt = 0 →
      t.phase = encode .pulseLongOn ∧ t.statusOut = 0#1 ∧ t.cnt = s.cfg.longCycles - 1 := by
    rintro ⟨rfl, h0⟩
    rcases execRxStop_cases h with ⟨hc, _⟩ | ⟨_, rfl⟩
    · exact absurd h0 hc
    · exact ⟨rfl, rfl, rfl⟩
  exact ⟨⟨hdelivers, fun hd => (hdelivered hd).1⟩, fun ht => (hdelivered (hdelivers ht)).2⟩

/-- Settles O25: counting, and the end of the on phase; of the outcomes of the two phases that move
here, one each enters it. -/
theorem pulseShortOnEndsInOff : Obligations.PulseShortOnEndsInOff := by
  refine ⟨fun s => ⟨countStep_counting _, exec_onPhase_done .short⟩, fun i s t _ h hs ht => ?_⟩
  rcases source_of_move_to_pulseShortOn (move_of_exec_enters h hs ht) with rfl | rfl
  · rcases execTxFrame_cases h with ⟨_, rfl⟩ | ⟨_, _, rfl⟩ | ⟨_, _, he⟩
    · exact absurd ht hs
    · exact absurd ht hs
    · rcases endFrame_cases he with ⟨_, b, _, rfl⟩ | ⟨_, _, rfl⟩ | ⟨_, hsel, rfl⟩
      · exact absurd ht hs
      · exact absurd ht (by decide : encode .rxIdle ≠ 7#4)
      · exact ⟨rfl, rfl, .inl ⟨rfl, hsel, rfl⟩⟩
  · rcases execPulseShortOff_cases h with ⟨_, rfl⟩ | ⟨_, _, rfl⟩ | ⟨_, hpulse, rfl⟩
    · exact absurd ht hs
    · exact absurd ht (by decide : encode .rxIdle ≠ 7#4)
    · exact ⟨rfl, rfl, .inr ⟨rfl, hpulse, rfl⟩⟩

/-! ## Progress along a run (R138, R152, R183) -/

/-- Where every step completes and keeps P, runs of every length complete. -/
theorem edges_completes {P : State → Prop} (hstep : ∀ s, P s → ∃ t, step s = .next t ∧ P t) (n : Nat)
    {s : State} (hs : P s) : ∃ t, edges n s = .next t := by
  induction n generalizing s with
  | zero => exact ⟨s, rfl⟩
  | succ n ih =>
    obtain ⟨u, hu, hP⟩ := hstep s hs
    rw [edges_succ n hu]
    exact ih hP

/-- Settles O36: the reset state meets the invariant, and from its states every edge completes. -/
theorem runsFromResetNeverStop : Obligations.RunsFromResetNeverStop := by
  intro c rx stim n hl
  refine edges_completes (P := fun u => u.cfg.Legal ∧ u.Inv)
    (fun s ⟨hlegal, hinv⟩ => invariantStatesStepToInvariantStates s hlegal hinv) n ⟨hl, ?_⟩
  exact (inv_iff _).mpr fun _ => ⟨.start, invAt_reset hl rfl⟩

/-! ## A pulse, edge by edge (R135, R137) -/

theorem Pulse.cycles_pos {c : Config} (h : c.Legal) (p : Pulse) : 0 < p.cycles c := by
  obtain ⟨_, _, hshort, hlong, _⟩ := (legal_iff c).mp h
  cases p with
  | long => exact Nat.zero_lt_of_lt hlong
  | short => exact hshort

/-- The on phase of a pulse has just been entered. -/
def Pulse.Begun (p : Pulse) (s : State) : Prop :=
  s.phase = encode p.onPhase ∧ s.cnt = p.cycles s.cfg - 1

/-- The registers r of a pulse's beginning, in its off phase with `cnt` at k. -/
def Pulse.off (p : Pulse) (r : Regs) (k : Nat) : Regs :=
  { r with phase := encode p.offPhase, statusOut := 1#1, cnt := k }

/-- The registers n edges after a pulse began with registers r. -/
def Pulse.regsAt (p : Pulse) (c : Config) (r : Regs) (n : Nat) : Regs :=
  if n < p.cycles c then { r with cnt := p.cycles c - 1 - n }
  else p.off r (2 * p.cycles c - 1 - n)

@[simp] theorem Pulse.regsAt_txOut (p : Pulse) (c : Config) (r : Regs) (n : Nat) :
    (p.regsAt c r n).txOut = r.txOut := by
  unfold Pulse.regsAt; split <;> rfl

theorem Pulse.regsAt_statusOut (p : Pulse) (c : Config) {r : Regs} (n : Nat)
    (h : r.statusOut = 0#1) :
    (p.regsAt c r n).statusOut = if n < p.cycles c then 0#1 else 1#1 := by
  unfold Pulse.regsAt; split
  · exact h
  · rfl

theorem Pulse.regsAt_phase_ne_rxIdle (p : Pulse) (c : Config) {r : Regs} (n : Nat)
    (h : r.phase = encode p.onPhase) : (p.regsAt c r n).phase ≠ encode .rxIdle := by
  unfold Pulse.regsAt; split
  · exact fun h' => p.onPhase_timed.2 (encode_injective (h.symm.trans h'))
  · exact fun h' => p.offPhase_timed.2 (encode_injective h')

/-- The on phase counts down from the pulse's duration. -/
theorem after_pulse_on {s : State} {p : Pulse} (hbegun : p.Begun s) {n : Nat}
    (hn : n < p.cycles s.cfg) (hs : s.LiveFor n) :
    After n s { s.toRegs with cnt := p.cycles s.cfg - 1 - n } := by
  obtain ⟨hphase, hcnt⟩ := hbegun
  rw [← hcnt]
  exact after_counting hphase p.onPhase_timed.1 p.onPhase_timed.2 (by omega) hs

/-- The off phase follows it and counts down from the same duration. -/
theorem after_pulse_off {s : State} {p : Pulse} (hbegun : p.Begun s) {k : Nat}
    (hk : k < p.cycles s.cfg) (hs : s.LiveFor (p.cycles s.cfg + k)) :
    After (p.cycles s.cfg + k) s (p.off s.toRegs (p.cycles s.cfg - 1 - k)) := by
  have ⟨hphase, _⟩ := hbegun
  have hD := p.cycles_pos hs.1
  have hedge : p.cycles s.cfg + k = p.cycles s.cfg - 1 + 1 + k := by omega
  rw [hedge] at hs ⊢
  have hlast := after_pulse_on hbegun (Nat.sub_one_lt_of_lt hD) (liveFor_mono hs (by omega))
  have hoff : After (p.cycles s.cfg - 1 + 1) s (p.off s.toRegs (p.cycles s.cfg - 1)) := by
    refine after_then_exec hlast (liveFor_mono hs (by omega)) hphase
      fun t hregs hcfg _ => ⟨_, exec_onPhase_done p (by rw [hregs]; exact Nat.sub_self _), ?_⟩
    rw [pulseOff_toRegs, hregs, hcfg]
    rfl
  exact after_then_counting (r := p.off s.toRegs (p.cycles s.cfg - 1 - k)) hoff hs rfl
    p.offPhase_timed.1 p.offPhase_timed.2 (by omega)

/-- The registers at each edge of a pulse. -/
theorem after_pulse {s : State} {p : Pulse} (hbegun : p.Begun s) {n : Nat}
    (hn : n < 2 * p.cycles s.cfg) (hs : s.LiveFor n) : After n s (p.regsAt s.cfg s.toRegs n) := by
  by_cases hon : n < p.cycles s.cfg
  · rw [Pulse.regsAt, if_pos hon]
    exact after_pulse_on hbegun hon hs
  · obtain ⟨k, rfl⟩ := Nat.exists_eq_add_of_le (Nat.not_lt.mp hon)
    rw [Pulse.regsAt, if_neg hon]
    have hcnt : 2 * p.cycles s.cfg - 1 - (p.cycles s.cfg + k) = p.cycles s.cfg - 1 - k := by omega
    rw [hcnt]
    exact after_pulse_off hbegun (by omega) hs

/-- A pulse lasts twice its duration; then the run goes on where the end of its off phase leads. -/
theorem after_pulse_end {s : State} {p : Pulse} (hbegun : p.Begun s) {r : Regs}
    (hs : s.LiveFor (2 * p.cycles s.cfg))
    (hend : ∀ t : State, t.toRegs = p.off s.toRegs 0 → t.cfg = s.cfg →
      ∃ u, exec p.offPhase t = .next u ∧ u.toRegs = r) : After (2 * p.cycles s.cfg) s r := by
  have hD := p.cycles_pos hs.1
  have hedge : 2 * p.cycles s.cfg = p.cycles s.cfg + (p.cycles s.cfg - 1) + 1 := by omega
  rw [hedge] at hs ⊢
  have hlast := after_pulse_off hbegun (Nat.sub_one_lt_of_lt hD) (liveFor_mono hs (Nat.le_succ _))
  rw [Nat.sub_self] at hlast
  exact after_then_exec hlast hs rfl fun t hregs hcfg _ => hend t hregs hcfg

/-! ## After a delivery (R137, R141) -/

/-- After a mismatch the core is back in RX_IDLE when the long pulse ends. -/
theorem after_mismatch {s : State} (hbegun : s.LongPulseBegun) (haddr : s.addr ≠ s.cfg.nodeId)
    (hs : s.LiveFor (2 * s.cfg.longCycles)) :
    After (2 * s.cfg.longCycles) s { Pulse.long.off s.toRegs 0 with phase := encode .rxIdle } := by
  obtain ⟨hphase, hcnt, _⟩ := hbegun
  refine after_pulse_end (p := .long) ⟨hphase, hcnt⟩ hs fun t hregs hcfg =>
    ⟨_, execPulseLongOff_mismatch (by rw [hregs]; rfl) ?_, ?_⟩
  · rw [hregs, hcfg]; exact haddr
  · rw [goto_toRegs, hregs]

/-- The registers at the reply's first interval, with first byte b. -/
def replyStarted (s : State) (b : Byte) : Regs :=
  { Pulse.long.off s.toRegs 0 with
    phase := encode .txFrame, msgSel := .reply, msgIdx := 0, txByte := b, txSlot := 0#4,
    txOut := 1#1, cnt := s.cfg.bitCycles - 1 }

/-- After a match the reply begins when the long pulse ends. -/
theorem after_match {s : State} (hbegun : s.LongPulseBegun) (haddr : s.addr = s.cfg.nodeId) {b : Byte}
    (hb : msgByte s .reply 0 = some b) (hs : s.LiveFor (2 * s.cfg.longCycles)) :
    After (2 * s.cfg.longCycles) s (replyStarted s b) := by
  obtain ⟨hphase, hcnt, _⟩ := hbegun
  refine after_pulse_end (p := .long) ⟨hphase, hcnt⟩ hs fun t hregs hcfg =>
    ⟨_, execPulseLongOff_match (b := b) (by rw [hregs]; rfl) ?_ ?_, ?_⟩
  · rw [hregs, hcfg]; exact haddr
  · exact (msgByte_congr hcfg (by rw [hregs]; rfl) .reply 0).trans hb
  · simp only [loadFrame_toRegs, goto_toRegs, goto_cfg, hregs, hcfg]
    rfl

/-- Settles O47: the long pulse up to its last edge, and RX_IDLE at its end. -/
theorem mismatchGivesOneLongPulse : Obligations.MismatchGivesOneLongPulse := by
  intro s n hbegun haddr hn hs
  have ⟨hphase, hcnt, hstatus⟩ := hbegun
  rcases hn.lt_or_eq with hlt | rfl
  · obtain ⟨t, ht, hregs, _⟩ := after_pulse (p := .long) ⟨hphase, hcnt⟩ hlt hs
    refine ⟨t, ht, ?_⟩
    rw [hregs]
    exact ⟨Pulse.regsAt_txOut .long _ _ n, Pulse.regsAt_statusOut .long _ n hstatus,
      iff_of_false (Pulse.regsAt_phase_ne_rxIdle .long _ n hphase) hlt.ne⟩
  · obtain ⟨t, ht, hregs, _⟩ := after_mismatch hbegun haddr hs
    refine ⟨t, ht, ?_⟩
    rw [hregs, if_neg (by omega)]
    exact ⟨rfl, rfl, iff_of_true rfl rfl⟩

/-- Settles O48: the long pulse up to its last edge, and the reply's first interval at its end. -/
theorem matchStartsTheReplyAfterTheLongPulse : Obligations.MatchStartsTheReplyAfterTheLongPulse := by
  intro s n hbegun haddr hn hs
  have ⟨hphase, hcnt, hstatus⟩ := hbegun
  rcases hn.lt_or_eq with hlt | rfl
  · obtain ⟨t, ht, hregs, _⟩ := after_pulse (p := .long) ⟨hphase, hcnt⟩ hlt hs
    refine ⟨t, ht, ?_⟩
    rw [hregs]
    exact ⟨Pulse.regsAt_statusOut .long _ n hstatus, fun _ => ⟨Pulse.regsAt_txOut .long _ _ n,
      Pulse.regsAt_phase_ne_rxIdle .long _ n hphase⟩, fun h => absurd h hlt.ne⟩
  · obtain ⟨b, hb⟩ := msgByte_eq_some (Nat.zero_lt_two.trans_le (reply_length s))
    obtain ⟨t, ht, hregs, hcfg, _⟩ := after_match hbegun haddr hb hs
    have haddr' : t.addr = s.addr := by rw [hregs]; rfl
    refine ⟨t, ht, ?_⟩
    rw [State.MessageBegun, State.FrameBegun, msgByte_congr hcfg haddr', hregs, hcfg,
      if_neg (by omega)]
    exact ⟨rfl, fun h => absurd h (lt_irrefl _), fun _ => ⟨⟨⟨rfl, rfl, rfl, rfl⟩, rfl, hb⟩, rfl, rfl⟩⟩

/-! ## After a reply (R135, R137) -/

/-- The registers at the beginning of the second short pulse are those of the first, but for its mark. -/
def secondPulseBegun (s : State) : Regs := { s.toRegs with pulseN := 1#1 }

theorem after_first_short_pulse {s : State} (hbegun : s.ShortPulsesBegun)
    (hs : s.LiveFor (2 * s.cfg.shortCycles)) :
    After (2 * s.cfg.shortCycles) s (secondPulseBegun s) := by
  obtain ⟨hphase, hcnt, hpulse, hstatus⟩ := hbegun
  refine after_pulse_end (p := .short) ⟨hphase, hcnt⟩ hs fun t hregs hcfg =>
    ⟨_, execPulseShortOff_first (by rw [hregs]; rfl) (by rw [hregs]; exact hpulse), ?_⟩
  simp only [startDelay_toRegs, setStatus_toRegs, goto_toRegs, hregs, hcfg, secondPulseBegun,
    Pulse.off]
  rw [hphase, hcnt, hstatus]

/-- The registers at each edge of the second short pulse. -/
theorem after_second_short_pulse {s : State} (hbegun : s.ShortPulsesBegun) {k : Nat}
    (hk : k < 2 * s.cfg.shortCycles) (hs : s.LiveFor (2 * s.cfg.shortCycles + k)) :
    After (2 * s.cfg.shortCycles + k) s (Pulse.short.regsAt s.cfg (secondPulseBegun s) k) := by
  have ⟨hphase, hcnt, _⟩ := hbegun
  refine after_trans (after_first_short_pulse hbegun (liveFor_mono hs (Nat.le_add_right _ _)))
    fun t hregs hcfg hp hinputs => ?_
  rw [← hregs, ← hcfg]
  refine after_pulse (p := .short) ?_ (hcfg ▸ hk) (liveFor_after hs hcfg hp hinputs)
  rw [Pulse.Begun, hregs, hcfg]
  exact ⟨hphase, hcnt⟩

/-- The registers after the second short pulse. -/
def shortPulsesEnded (s : State) : Regs :=
  { Pulse.short.off s.toRegs 0 with phase := encode .rxIdle, pulseN := 0#1 }

theorem after_short_pulses {s : State} (hbegun : s.ShortPulsesBegun)
    (hs : s.LiveFor (4 * s.cfg.shortCycles)) :
    After (4 * s.cfg.shortCycles) s (shortPulsesEnded s) := by
  have ⟨hphase, hcnt, _⟩ := hbegun
  have hedge : 4 * s.cfg.shortCycles = 2 * s.cfg.shortCycles + 2 * s.cfg.shortCycles := by omega
  rw [hedge] at hs ⊢
  refine after_trans (after_first_short_pulse hbegun (liveFor_mono hs (Nat.le_add_right _ _)))
    fun t hregs hcfg hp hinputs => ?_
  have hlive := liveFor_after hs hcfg hp hinputs
  rw [← hcfg] at hlive ⊢
  refine after_pulse_end (p := .short) ?_ hlive fun u hu _ =>
    ⟨_, execPulseShortOff_second (by rw [hu]; rfl) (by rw [hu, hregs]; rfl), ?_⟩
  · rw [Pulse.Begun, hregs, hcfg]
    exact ⟨hphase, hcnt⟩
  · rw [goto_toRegs, hu, hregs]
    rfl

/-- Of the two equal parts of a pulse, the first is the one with an even number of durations before it. -/
theorem div_even_iff_lt {n d : Nat} (h : n < 2 * d) : n / d % 2 = 0 ↔ n < d := by
  have hd : 0 < d := by omega
  have hq : n / d < 2 := (Nat.div_lt_iff_lt_mul hd).mpr h
  rw [Nat.mod_eq_of_lt hq, Nat.div_eq_zero_iff_lt hd]

theorem Pulse.regsAt_statusOut_eq_on_iff (p : Pulse) {c : Config} {r : Regs} {n : Nat}
    (h : r.statusOut = 0#1) (hn : n < 2 * p.cycles c) :
    (p.regsAt c r n).statusOut = 0#1 ↔ n / p.cycles c % 2 = 0 := by
  rw [p.regsAt_statusOut c n h, div_even_iff_lt hn]
  split
  · next hon => exact iff_of_true rfl hon
  · next hoff => exact iff_of_false (by decide) hoff

/-- Settles O49: each short pulse up to its last edge, and RX_IDLE at the end of the second. -/
theorem twoShortPulsesFollowAReply : Obligations.TwoShortPulsesFollowAReply := by
  intro s n hbegun hn hs
  have ⟨hphase, hcnt, _, hstatus⟩ := hbegun
  rcases hn.lt_or_eq with hlt | rfl
  · rcases Nat.lt_or_ge n (2 * s.cfg.shortCycles) with hfirst | hsecond
    · obtain ⟨t, ht, hregs, _⟩ := after_pulse (p := .short) ⟨hphase, hcnt⟩ hfirst hs
      refine ⟨t, ht, ?_⟩
      rw [hregs, and_iff_right hlt]
      exact ⟨Pulse.regsAt_txOut .short _ _ n, Pulse.regsAt_statusOut_eq_on_iff .short hstatus hfirst,
        iff_of_false (Pulse.regsAt_phase_ne_rxIdle .short _ n hphase) hlt.ne⟩
    · obtain ⟨k, rfl⟩ := Nat.exists_eq_add_of_le hsecond
      have hk : k < 2 * s.cfg.shortCycles := by omega
      have hD : 0 < s.cfg.shortCycles := by omega
      obtain ⟨t, ht, hregs, _⟩ := after_second_short_pulse hbegun hk hs
      refine ⟨t, ht, ?_⟩
      rw [hregs, and_iff_right hlt, Nat.add_comm, Nat.add_mul_div_right _ _ hD, Nat.add_mod_right]
      exact ⟨Pulse.regsAt_txOut .short _ _ k, Pulse.regsAt_statusOut_eq_on_iff .short hstatus hk,
        iff_of_false (Pulse.regsAt_phase_ne_rxIdle .short _ k hphase) (by omega)⟩
  · obtain ⟨t, ht, hregs, _⟩ := after_short_pulses hbegun hs
    refine ⟨t, ht, ?_⟩
    rw [hregs]
    exact ⟨rfl, iff_of_false (by decide : (1#1 : Bit) ≠ 0#1) (fun h => absurd h.1 (lt_irrefl _)),
      iff_of_true rfl rfl⟩

/-! ## The blind window of a dispatch cycle (R137, R176) -/

/-- At each edge from a on and before b the core is in another phase than RX_IDLE. -/
def Blind (a b : Nat) (s : State) : Prop :=
  ∀ n, a ≤ n → n < b → ∃ t, edges n s = .next t ∧ t.phase ≠ encode .rxIdle

/-- Blind from edge a on, the core polls again at edge w. -/
def BlindUntil (a w : Nat) (s : State) : Prop :=
  (∃ t, edges w s = .next t ∧ t.phase = encode .rxIdle) ∧ Blind a w s

theorem blind_trans {a m b : Nat} {s t : State} (h1 : Blind a m s) (ht : edges m s = .next t)
    (h2 : Blind 0 b t) : Blind a (m + b) s := by
  intro n ha hn
  rcases Nat.lt_or_ge n m with hlt | hge
  · exact h1 n ha hlt
  · obtain ⟨k, rfl⟩ := Nat.exists_eq_add_of_le hge
    rw [edges_add m k ht]
    exact h2 k k.zero_le (by omega)

theorem blindUntil_trans {a m w : Nat} {s t : State} (h1 : Blind a m s) (ht : edges m s = .next t)
    (h2 : BlindUntil 0 w t) : BlindUntil a (m + w) s := by
  obtain ⟨hpolls, hblind⟩ := h2
  refine ⟨?_, blind_trans h1 ht hblind⟩
  rw [edges_add m w ht]
  exact hpolls

/-- Where RX_IDLE comes at edge w and at no edge before it, the core is blind up to there. -/
theorem blindUntil_of_iff {w : Nat} {s : State}
    (h : ∀ n ≤ w, ∃ t, edges n s = .next t ∧ (t.phase = encode .rxIdle ↔ n = w)) :
    BlindUntil 0 w s := by
  constructor
  · obtain ⟨t, ht, hphase⟩ := h w le_rfl
    exact ⟨t, ht, hphase.mpr rfl⟩
  · intro n _ hn
    obtain ⟨t, ht, hphase⟩ := h n hn.le
    exact ⟨t, ht, fun hidle => hn.ne (hphase.mp hidle)⟩

theorem edges_cfg {s t : State} {n : Nat} (h : edges n s = .next t) : t.cfg = s.cfg :=
  edges_keeps (P := fun u => u.cfg = s.cfg)
    (fun u v hu hv => (configurationNeverChanges u v hv).trans hu) rfl h

theorem msgLen_congr {s t : State} (h : t.cfg = s.cfg) (sel : MsgSel) : msgLen t sel = msgLen s sel := by
  rw [msgLen_eq, msgLen_eq, h]

/-- If k + n edges are live, then after k of them the next n are. -/
theorem liveFor_of_edges {s t : State} {k n : Nat} (hs : s.LiveFor (k + n)) (h : edges k s = .next t) :
    t.LiveFor n := by
  induction k generalizing s with
  | zero => cases h; rwa [Nat.zero_add] at hs
  | succ k ih =>
    cases hu : step s with
    | next u =>
      rw [edges_succ k hu] at h
      have hcfg : u.cfg = s.cfg := configurationNeverChanges s u hu
      obtain ⟨_, hinputs⟩ := eachEdgeConsumesOneInput s u hu
      refine ih (liveFor_after (k := 1) ?_ hcfg (step_keeps_power hs.2.1 hu) fun j => ?_) h
      · rwa [← Nat.add_assoc, Nat.add_comm 1]
      · rw [hinputs, Nat.add_comm]
    | fault e => simp [edges, hu] at h
    | refused e => simp [edges, hu] at h

/-- How many edges a receiving phase still takes, its delivery included (R91 to R93). -/
def untilDelivery (s : State) : Instr → Nat
  | .rxData => s.cnt + 1 + (7 - s.rxBit.toNat) * s.cfg.bitCycles + (s.cfg.bitCycles + halfCycles s.cfg)
  | .rxStop => s.cnt + 1
  | _ => 0

/-- Each edge takes one off: while there is more than the delivery's edge to go, an edge of a receiving
phase leads to a receiving phase. -/
theorem exec_untilDelivery {i : Instr} {s u : State} {n : Nat} (hl : s.cfg.Legal)
    (hi : s.phase = encode i) (hn : n + 1 < untilDelivery s i) (hu : exec i s = .next u) :
    ∃ j, u.phase = encode j ∧ n < untilDelivery u j := by
  have hB := bitCycles_pos hl
  cases i with
  | rxData =>
    simp only [untilDelivery] at hn
    rcases execRxData_cases hu with ⟨hc, rfl⟩ | ⟨h0, hbit, rfl⟩ | ⟨h0, hbit, rfl⟩
    · refine ⟨.rxData, hi, ?_⟩
      simp only [untilDelivery]
      omega
    · refine ⟨.rxStop, rfl, ?_⟩
      simp only [hbit, BitVec.reduceToNat, Nat.sub_self, Nat.zero_mul] at hn
      simp only [untilDelivery, startDelay_toRegs]
      omega
    · refine ⟨.rxData, hi, ?_⟩
      have hnext : 7 - s.rxBit.toNat = 7 - (s.rxBit + 1#3).toNat + 1 := by bv_omega
      rw [hnext, Nat.succ_mul] at hn
      simp only [untilDelivery, startDelay_toRegs, startDelay_cfg, takeSample_cfg]
      omega
  | rxStop =>
    simp only [untilDelivery] at hn
    rcases execRxStop_cases hu with ⟨hc, rfl⟩ | ⟨h0, rfl⟩
    · refine ⟨.rxStop, hi, ?_⟩
      simp only [untilDelivery]
      omega
    · omega
  | start | rxIdle | pulseLongOn | pulseLongOff | txFrame | pulseShortOn | pulseShortOff => cases hn

/-- Until the delivery the core does not poll. -/
theorem blind_until_delivery {s : State} {i : Instr} {n : Nat} (hi : s.phase = encode i)
    (hn : n < untilDelivery s i) (hs : s.LiveFor n) :
    ∃ t, edges n s = .next t ∧ t.phase ≠ encode .rxIdle := by
  induction n generalizing s i with
  | zero =>
    refine ⟨s, rfl, fun h => ?_⟩
    obtain rfl : i = .rxIdle := encode_injective (hi.symm.trans h)
    cases hn
  | succ n ih =>
    obtain ⟨u, hu, hstep⟩ := step_phase_completes (live_of_liveFor hs) hi
    obtain ⟨j, hj, hlt⟩ := exec_untilDelivery hs.1 hi hn hu
    rw [edges_succ n hstep]
    exact ih (s := nextEdge u) hj hlt (liveFor_after_exec hs hu)

/-- A detection is followed by ten bit periods up to the delivery (R93). -/
theorem blind_reception {s : State} (hphase : s.phase = encode .rxIdle) (hrx : (inputAt s 0).rx = 1#1)
    (hs : s.LiveFor (10 * s.cfg.bitCycles + 1)) : Blind 1 (10 * s.cfg.bitCycles + 1) s := by
  intro n hpos hn
  obtain ⟨k, rfl⟩ := Nat.exists_eq_add_of_le' hpos
  have hB := bitCycles_pos hs.1
  have hH := two_half hs.1
  have hdetect : exec .rxIdle s = _ := execRxIdle_active hrx
  rw [edges_succ k (step_phase (live_of_liveFor hs) hphase hdetect)]
  refine blind_until_delivery (i := .rxData) rfl ?_
    (liveFor_after_exec (liveFor_mono hs (by omega)) hdetect)
  simp only [untilDelivery, nextEdge_toRegs, nextEdge_cfg, startDelay_toRegs, startDelay_cfg,
    goto_toRegs, goto_cfg, BitVec.reduceToNat]
  omega

/-- While a message is sent the core does not poll (R113, R116). -/
theorem blind_message {s : State} (hbegun : s.MessageBegun)
    (hs : s.LiveFor (11 * s.cfg.bitCycles * msgLen s s.msgSel)) :
    Blind 0 (11 * s.cfg.bitCycles * msgLen s s.msgSel) s := by
  intro n _ hn
  have hB := bitCycles_pos hs.1
  have hi : n / (11 * s.cfg.bitCycles) < msgLen s s.msgSel := Nat.div_lt_of_lt_mul hn
  have hsplit := Nat.div_add_mod n (11 * s.cfg.bitCycles)
  have hlive : s.LiveFor
      (11 * s.cfg.bitCycles * (n / (11 * s.cfg.bitCycles)) + n % (11 * s.cfg.bitCycles)) :=
    hsplit.symm ▸ liveFor_mono hs hn.le
  obtain ⟨t, ht, _, _, hcfg, hbelow, _⟩ :=
    messageFramesAreBackToBack s _ hbegun hi.le (liveFor_mono hlive (Nat.le_add_right _ _))
  obtain ⟨hbegun', _⟩ := hbelow hi
  obtain ⟨u, hu, hphase, _⟩ := frameOccupiesElevenBitPeriods t _ hbegun'
    (by rw [hcfg]; exact Nat.mod_lt n (by omega)) (liveFor_of_edges hlive ht)
  rw [← hsplit, edges_add _ _ ht]
  exact ⟨u, hu, hphase.trans_ne (by decide)⟩

/-- A mismatch is followed by the long pulse alone (R137). -/
theorem blindUntil_mismatch {s : State} (hbegun : s.LongPulseBegun) (haddr : s.addr ≠ s.cfg.nodeId)
    (hs : s.LiveFor (2 * s.cfg.longCycles)) : BlindUntil 0 (2 * s.cfg.longCycles) s := by
  refine blindUntil_of_iff fun n hn => ?_
  obtain ⟨t, ht, _, _, hphase⟩ :=
    mismatchGivesOneLongPulse s n hbegun haddr hn (liveFor_mono hs hn)
  exact ⟨t, ht, hphase⟩

/-- A reply is followed by the two short pulses (R137). -/
theorem blindUntil_short_pulses {s : State} (hbegun : s.ShortPulsesBegun)
    (hs : s.LiveFor (4 * s.cfg.shortCycles)) : BlindUntil 0 (4 * s.cfg.shortCycles) s := by
  refine blindUntil_of_iff fun n hn => ?_
  obtain ⟨t, ht, _, _, hphase⟩ := twoShortPulsesFollowAReply s n hbegun hn (liveFor_mono hs hn)
  exact ⟨t, ht, hphase⟩

/-- The core is blind while it sends its reply and through the two short pulses after it (R137). -/
theorem blindUntil_reply {s : State} (hbegun : s.MessageBegun) (hsel : s.msgSel = .reply)
    (hs : s.LiveFor (11 * s.cfg.bitCycles * msgLen s .reply + 4 * s.cfg.shortCycles)) :
    BlindUntil 0 (11 * s.cfg.bitCycles * msgLen s .reply + 4 * s.cfg.shortCycles) s := by
  rw [← hsel] at hs ⊢
  have hsent := liveFor_mono hs (Nat.le_add_right _ _)
  obtain ⟨t, ht, _, _, hcfg, _, _, hend⟩ := messageFramesAreBackToBack s _ hbegun le_rfl hsent
  obtain ⟨hpulses, _⟩ := hend rfl hsel
  have hlive := liveFor_of_edges hs ht
  refine blindUntil_trans (blind_message hbegun hsent) ht ?_
  rw [← hcfg] at hlive ⊢
  exact blindUntil_short_pulses hpulses hlive

/-- A match is followed by the long pulse, the reply and the two short pulses (R137). -/
theorem blindUntil_match {s : State} (hbegun : s.LongPulseBegun) (haddr : s.addr = s.cfg.nodeId)
    (hs : s.LiveFor (2 * s.cfg.longCycles +
      (11 * s.cfg.bitCycles * msgLen s .reply + 4 * s.cfg.shortCycles))) :
    BlindUntil 0 (2 * s.cfg.longCycles +
      (11 * s.cfg.bitCycles * msgLen s .reply + 4 * s.cfg.shortCycles)) s := by
  have hpulse := liveFor_mono hs (Nat.le_add_right _ _)
  obtain ⟨t, ht, _, _, hreply⟩ := matchStartsTheReplyAfterTheLongPulse s _ hbegun haddr le_rfl hpulse
  have hcfg := edges_cfg ht
  obtain ⟨hmessage, hsel, _⟩ := hreply rfl
  have hlive := liveFor_of_edges hs ht
  refine blindUntil_trans (fun n _ hn => ?_) ht ?_
  · obtain ⟨t, ht, _, hblind, _⟩ :=
      matchStartsTheReplyAfterTheLongPulse s n hbegun haddr hn.le (liveFor_mono hpulse hn.le)
    exact ⟨t, ht, (hblind hn).2⟩
  · rw [← msgLen_congr hcfg, ← hcfg] at hlive ⊢
    exact blindUntil_reply hmessage hsel hlive

/-- The byte assembled is the one whose bits are the complements of the eight sampled levels (R93). -/
theorem assembled_eq_iff (s : State) (b : Byte) :
    assembled s 8 = b ↔
      ∀ k < 8, b.getLsbD k = decide ((inputAt s (sampleEdge s.cfg k)).rx = 0#1) := by
  constructor
  · rintro rfl k hk
    exact getLsbD_assembled s hk
  · exact fun h => BitVec.eq_of_getLsbD_eq fun k hk => (getLsbD_assembled s hk).trans (h k hk).symm

/-- Settles O50: the reception, then what follows the delivery of the byte its eight samples spell. -/
theorem blindWindowOfADispatchCycle : Obligations.BlindWindowOfADispatchCycle := by
  intro s w isMatch hphase hrx hmatch hw hs
  have hrest : w + 1 = 10 * s.cfg.bitCycles + 1 + (w - 10 * s.cfg.bitCycles) := by omega
  have hreceive : s.LiveFor (10 * s.cfg.bitCycles + 1) := liveFor_mono hs (by omega)
  obtain ⟨t, ht, hregs, hcfg, hp, hinputs⟩ := after_reception hphase hrx hreceive
  have hbegun : t.LongPulseBegun := by
    rw [State.LongPulseBegun, hregs, hcfg]; exact ⟨rfl, rfl, rfl⟩
  have haddr : t.addr = t.cfg.nodeId ↔ isMatch = true := by
    rw [hregs, hcfg, hmatch]; exact assembled_eq_iff s _
  have hlive : t.LiveFor (w - 10 * s.cfg.bitCycles) :=
    liveFor_after (hrest ▸ hs) hcfg hp hinputs
  have hcycle : BlindUntil 1 (w + 1) s := by
    rw [hrest]
    refine blindUntil_trans (blind_reception hphase hrx hreceive) ht ?_
    cases isMatch with
    | true =>
      have hwindow : w - 10 * s.cfg.bitCycles = 2 * t.cfg.longCycles +
          (11 * t.cfg.bitCycles * msgLen t .reply + 4 * t.cfg.shortCycles) := by
        rw [hw, hcfg, msgLen_congr hcfg, if_pos rfl]; omega
      rw [hwindow] at hlive ⊢
      exact blindUntil_match hbegun (haddr.mpr rfl) hlive
    | false =>
      have hwindow : w - 10 * s.cfg.bitCycles = 2 * t.cfg.longCycles := by
        rw [hw, hcfg, if_neg nofun]; omega
      rw [hwindow] at hlive ⊢
      exact blindUntil_mismatch hbegun (fun h => nomatch haddr.mp h) hlive
  obtain ⟨hpolls, hblind⟩ := hcycle
  exact ⟨hpolls, fun n hpos hn => hblind n hpos (Nat.lt_succ_of_le hn)⟩

end Sys2Proof.Proofs

/-! # Proofs: phases raise no exception, and the bus (spec/60_exceptions.md R150, R157, R158) -/

namespace Sys2Proof.Proofs

open Sys2Proof.Machine Sys2Proof.Laws

/-! ## No exceptions (R150) -/

/-- Settles O9: each phase's operations complete, and both messages have a first byte. -/
theorem everyPhaseRuleCompletes : Obligations.EveryPhaseRuleCompletes :=
  fun i _ hl => exec_completes i hl

/-! ## The level of a line, by the drives that are driving (R157) -/

theorem lineLevel_undriven {drives : List Drive} {free : Bit}
    (h : drives.filter (fun d => d.driving) = []) : lineLevel drives free = 0#1 := by
  rw [lineLevel, h]

theorem lineLevel_lone {drives : List Drive} {free : Bit} {d : Drive}
    (h : drives.filter (fun d => d.driving) = [d]) : lineLevel drives free = d.level := by
  rw [lineLevel, h]

theorem lineLevel_contended {drives : List Drive} {free : Bit}
    (h : 2 ≤ (drives.filter fun d => d.driving).length) : lineLevel drives free = free := by
  unfold lineLevel
  split
  · next hnone => simp [hnone] at h
  · next hone => simp [hone] at h
  · rfl

theorem lineLevel_singleton (d : Drive) (free : Bit) :
    lineLevel [d] free = if d.driving then d.level else 0#1 := by
  cases hd : d.driving with
  | true => exact lineLevel_lone (List.filter_cons_of_pos hd)
  | false => exact lineLevel_undriven (List.filter_cons_of_neg (ne_true_of_eq_false hd))

/-! ## Who drives the shared wire (R158) -/

/-- Under SHARED the requester is a driver where it drives, and so is each node in TX_FRAME. -/
theorem filter_driving_shared {b : Bus} (hb : b.topology = .shared) (req : Drive) :
    (b.drivers req).filter (fun d => d.driving) =
      (if req.driving then [req] else []) ++ (b.nodes.filter fun s => s.phase = 6#4).map nodeDrive := by
  have hnodes : (fun d => d.driving) ∘ nodeDrive = fun s => decide (s.phase = 6#4) :=
    funext fun s => Bool.eq_iff_iff.mpr ((nodeDrive_driving_iff s).trans decide_eq_true_iff.symm)
  rw [Bus.drivers, hb, List.filter_cons, List.filter_map, hnodes]
  split <;> rfl

theorem filter_sending_eq_nil {l : List State} (h : ∀ s ∈ l, s.phase ≠ 6#4) :
    (l.filter fun s => s.phase = 6#4) = [] :=
  List.filter_eq_nil_iff.mpr fun s hs => by simpa using h s hs

theorem filter_sending_eq_singleton {pre post : List State} {s : State} (hs : s.phase = 6#4)
    (h : ∀ u ∈ pre ++ post, u.phase ≠ 6#4) :
    ((pre ++ s :: post).filter fun u => u.phase = 6#4) = [s] := by
  obtain ⟨hpre, hpost⟩ := List.forall_mem_append.mp h
  rw [List.filter_append, List.filter_cons_of_pos (by simpa using hs), filter_sending_eq_nil hpre,
    filter_sending_eq_nil hpost, List.nil_append]

theorem rxLevel_split {b : Bus} (hb : b.topology = .split) (req : Drive) (k : Nat) :
    b.rxLevel req k = if req.driving then req.level else 0#1 := by
  rw [Bus.rxLevel, Bus.drivers, hb]
  exact lineLevel_singleton req _

/-- Settles O51: under SPLIT the requester is the only agent; under SHARED the agents that drive are the
requester and the nodes in TX_FRAME, and each clause counts them. -/
theorem busLevelByDrivers : Obligations.BusLevelByDrivers := by
  intro b req k
  refine ⟨fun hb => rxLevel_split hb req k, fun hb => ?_⟩
  have hdrivers := filter_driving_shared hb req
  refine ⟨?none, ?requester, ?node, ?contended⟩
  case none =>
    rintro ⟨hreq, hnodes⟩
    exact lineLevel_undriven (by rw [hdrivers, hreq, filter_sending_eq_nil hnodes]; rfl)
  case requester =>
    rintro ⟨hreq, hnodes⟩
    exact lineLevel_lone (by rw [hdrivers, hreq, filter_sending_eq_nil hnodes]; rfl)
  case node =>
    intro s pre post hreq hnodes hs hothers
    exact lineLevel_lone (d := nodeDrive s)
      (by rw [hdrivers, hreq, hnodes, filter_sending_eq_singleton hs hothers]; rfl)
  case contended =>
    intro h
    refine lineLevel_contended ?_
    rw [hdrivers, List.length_append, List.length_map, ← List.countP_eq_length_filter, Nat.add_comm]
    cases hreq : req.driving <;> simpa [hreq] using h

/-! ## Each node's own step (R157) -/

/-- An edge of some nodes, the first at place k, is a step of each at its own place and level. -/
theorem stepNodes_pointwise {level : Nat → Bit} {k : Nat} {l l' : List State}
    (h : stepNodes level k l = .next l') :
    l'.length = l.length ∧ ∀ (j : Nat) (s : State), l[j]? = some s →
      ∃ t, step (s.onBus (k + j) (level (k + j))) = .next t ∧ l'[j]? = some t := by
  induction l generalizing k l' with
  | nil =>
    cases h
    exact ⟨rfl, nofun⟩
  | cons s l ih =>
    obtain ⟨t, ts, ht, hts, rfl⟩ := stepNodes_cons.mp h
    obtain ⟨hlen, hrest⟩ := ih hts
    refine ⟨congrArg (· + 1) hlen, fun j u hu => ?_⟩
    cases j with
    | zero =>
      cases hu
      exact ⟨t, ht, rfl⟩
    | succ j =>
      have hplace : k + (j + 1) = k + 1 + j := by omega
      rw [hplace]
      exact hrest j u hu

/-- What a bus edge can answer: the nodes' edges, with the topology kept. -/
theorem busStep_next {b b' : Bus} {req : Drive} (h : b.step req = .next b') :
    ∃ ts, stepNodes (b.rxLevel req) 0 b.nodes = .next ts ∧
      b' = { b with nodes := ts, edge := b.edge + 1 } := by
  unfold Bus.step at h
  split at h
  · next ts hts => exact ⟨ts, hts, (Host.Outcome.next.inj h).symm⟩
  · cases h
  · cases h

/-- Settles O52: the bus edge is the nodes' steps place by place, and no step writes the place. -/
theorem busNodesStepIndependently : Obligations.BusNodesStepIndependently := by
  intro b b' req h
  obtain ⟨ts, hts, rfl⟩ := busStep_next h
  obtain ⟨hlen, hnodes⟩ := stepNodes_pointwise hts
  refine ⟨rfl, hlen, fun k s hs => ?_⟩
  obtain ⟨t, ht, hat⟩ := hnodes k s hs
  rw [Nat.zero_add] at ht
  exact ⟨t, ht, hat, step_place ht⟩

end Sys2Proof.Proofs

/-! # Proofs: reset, startup and the hazards of timing (spec/70_reset_and_hazards.md R170, R175, R177) -/

namespace Sys2Proof.Proofs

open Sys2Proof.Machine Sys2Proof.Laws

/-! ## Reset (R170) -/

/-- Settles O2: a reset edge writes `RESET_STATE` and keeps the configuration. -/
theorem resetEdgeGivesResetState : Obligations.ResetEdgeGivesResetState := by
  intro s hl hr
  exact ⟨_, step_reset hl hr, rfl, rfl, rfl⟩

/-! ## Startup (R175) -/

/-- START's one edge begins the banner, whatever the registers are (R131). -/
theorem start_begins_banner {s : State} (hphase : s.phase = encode .start) (hs : s.Live) :
    ∃ t, edges 1 s = .next t ∧ t.MessageBegun ∧ t.msgSel = .banner := by
  obtain ⟨b, hb⟩ := msgByte_eq_some (banner_length hs.1)
  have hbegins : exec .start s = _ := startMessage_some hb
  obtain ⟨t, ht, hregs, hcfg, _⟩ := after_exec hs hphase hbegins
  have haddr : t.addr = s.addr := by rw [hregs]; rfl
  refine ⟨t, ht, ?_⟩
  rw [State.MessageBegun, State.FrameBegun, msgByte_congr hcfg haddr, hregs, hcfg]
  exact ⟨⟨⟨rfl, rfl, rfl, rfl⟩, rfl, hb⟩, rfl⟩

/-- The core is blind while it sends its banner and polls at the banner's end (R116). -/
theorem blindUntil_banner {s : State} (hbegun : s.MessageBegun) (hsel : s.msgSel = .banner)
    (hs : s.LiveFor (11 * s.cfg.bitCycles * msgLen s .banner)) :
    BlindUntil 0 (11 * s.cfg.bitCycles * msgLen s .banner) s := by
  rw [← hsel] at hs ⊢
  obtain ⟨t, ht, _, _, _, _, hend, _⟩ := messageFramesAreBackToBack s _ hbegun le_rfl hs
  obtain ⟨hpolls, _⟩ := hend rfl hsel
  exact ⟨⟨t, ht, hpolls⟩, blind_message hbegun hs⟩

/-- Settles O46: the edge of START, then the banner. -/
theorem startupListensAfterTheBanner : Obligations.StartupListensAfterTheBanner := by
  intro s hphase hs
  obtain ⟨t, ht, hbegun, hsel⟩ := start_begins_banner hphase (live_of_liveFor hs)
  have hcfg := edges_cfg ht
  have hstart : Blind 0 1 s := by
    intro n _ hn
    obtain rfl := Nat.lt_one_iff.mp hn
    exact ⟨s, rfl, hphase.trans_ne (by decide)⟩
  have hstartup : BlindUntil 0 (11 * s.cfg.bitCycles * msgLen s .banner + 1) s := by
    rw [Nat.add_comm] at hs ⊢
    have hlive := liveFor_of_edges hs ht
    refine blindUntil_trans hstart ht ?_
    rw [← msgLen_congr hcfg, ← hcfg] at hlive ⊢
    exact blindUntil_banner hbegun hsel hlive
  obtain ⟨hpolls, hblind⟩ := hstartup
  exact ⟨hpolls, fun n hn => hblind n n.zero_le (Nat.lt_succ_of_le hn), t, ht, hbegun, hsel⟩

/-! ## Late detection (R177) -/

/-- During the B intervals of slot m the line shows that slot's level (R113). -/
theorem txLine_in_slot {s : State} (hbegun : s.FrameBegun) {m e : Nat} (hm : m ≤ 10)
    (he : e < s.cfg.bitCycles) (hs : s.LiveFor (11 * s.cfg.bitCycles)) :
    txLine (m * s.cfg.bitCycles + e) s = some (slotLevel s.txByte (BitVec.ofNat 4 m)) := by
  have hslots : m * s.cfg.bitCycles ≤ 10 * s.cfg.bitCycles := Nat.mul_le_mul_right _ hm
  exact txLine_of_after (after_slot hbegun hm he (liveFor_mono hs (by omega)))

/-- Read back from its data slot, a bit is the byte's (R62). -/
theorem data_slot_reads_bit (b : Byte) {k : Nat} (hk : k < 8) :
    decide (slotLevel b (BitVec.ofNat 4 (k + 1)) = 0#1) = b.getLsbD k := by
  rw [slotLevel_data b k hk, levelOfBit_bitAt]
  cases b.getLsbD k <;> rfl

/-- Read one slot late, the bits are those of the byte shifted down, and the stop bit's 1 (R60). -/
theorem next_slot_reads_shifted_bit (b : Byte) {k : Nat} (hk : k < 8) :
    decide (slotLevel b (BitVec.ofNat 4 (k + 1 + 1)) = 0#1) = ((b >>> 1) ||| 0x80#8).getLsbD k := by
  rcases Nat.lt_or_eq_of_le (Nat.le_of_lt_succ hk) with hlt | rfl
  · have htop : (0x80#8).getLsbD k = false := by
      revert k
      decide
    rw [data_slot_reads_bit b (Nat.succ_lt_succ hlt), BitVec.getLsbD_or, htop, Bool.or_false,
      BitVec.getLsbD_ushiftRight, Nat.add_comm]
  · rw [slotLevel_idle b _ (by decide), BitVec.getLsbD_or]
    exact (Bool.or_true _).symm

/-- Settles O45: d edges late, the sample of bit k falls H + d edges after the start of its slot k + 1,
which is in that slot while H + d < B and in the next one from then on. -/
theorem lateDetectionIsHarmlessWithinAHalfBit :
    Obligations.LateDetectionIsHarmlessWithinAHalfBit := by
  intro tx rx d hbegun hphase hB hd htx hrx hline
  have hH : 2 * (rx.cfg.bitCycles / 2) = rx.cfg.bitCycles := two_half hrx.1
  have hread {j m e : Nat} (hj : j ≤ 10 * rx.cfg.bitCycles) (hm : m ≤ 10) (he : e < rx.cfg.bitCycles)
      (hplace : j + d = m * rx.cfg.bitCycles + e) :
      (inputAt rx j).rx = slotLevel tx.txByte (BitVec.ofNat 4 m) := by
    have hsent := txLine_in_slot hbegun hm (hB ▸ he) htx
    rw [hB, ← hplace] at hsent
    exact Option.some_inj.mp ((hline j hj).symm.trans hsent)
  have hdetect : (inputAt rx 0).rx = 1#1 := hread (Nat.zero_le _) (Nat.zero_le _) hd (by omega)
  obtain ⟨t, ht, _, _, _, hbits⟩ := receptionSamplesBitCentres rx hphase hrx hdetect
  have hsample {k : Nat} (hk : k < 8) :
      rx.cfg.bitCycles / 2 + (k + 1) * rx.cfg.bitCycles ≤ 10 * rx.cfg.bitCycles :=
    (sampleEdge_bounds hrx.1 hk).2.le
  refine ⟨t, ht, fun hearly => BitVec.eq_of_getLsbD_eq fun k hk => ?early,
    fun hlate => BitVec.eq_of_getLsbD_eq fun k hk => ?late⟩
  case early =>
    rw [hbits k hk, hread (m := k + 1) (e := rx.cfg.bitCycles / 2 + d) (hsample hk) (by omega)
      (by omega) (by omega)]
    exact data_slot_reads_bit _ hk
  case late =>
    rw [hbits k hk, hread (m := k + 1 + 1) (e := d - rx.cfg.bitCycles / 2) (hsample hk) (by omega)
      (by omega) (by rw [Nat.succ_mul (k + 1)]; omega)]
    exact next_slot_reads_shifted_bit _ hk

end Sys2Proof.Proofs
